-- ==== Sys2Proof/Word.lean ====
section
/-! DEFINITION. The word types of the LS8 unit: bytes, the program counter's word and register indexes. -/

namespace Sys2Proof

/-- A byte, 0 to 255: a memory cell, a general register, an operand (10_state.md R10, R12). -/
abbrev Byte := BitVec 8

/-- The word of the program counter: nine bits, holding 0 to 256 (10_state.md R18, log entry 5). -/
abbrev Pc := BitVec 9

/-- The index of a general register, R0 to R7 (10_state.md R12). -/
abbrev RegIdx := Fin 8

end Sys2Proof
end

