-- ==== Sys2Proof/Config.lean ====
section
/-! DEFINITION. What the spec fixes or leaves as a parameter of the hardware (00_scope.md R5). The values this hardware
takes for the two open parameters stand in Decode.lean (`Config.hw`). -/

namespace Sys2Proof

/-- The fourteen mnemonics of the opcode table (00_scope.md R1): the names OPCODE_MAP gives bytes to. -/
inductive Mnemonic
  | hlt | ret | push | pop | prn | pra | call | jmp | jeq | jne | ldi | add | mul | cmp
  deriving DecidableEq, Repr

/-- The parameter OPCODE_MAP: a byte for each mnemonic (30_encoding.md R66, decision D1, log entry 1). -/
abbrev OpcodeMap := Mnemonic → Byte

/-- The two parameters the spec keeps open (00_scope.md R5). -/
structure Config where
  /-- OPCODE_MAP (30_encoding.md R66). -/
  opcodeMap : OpcodeMap
  /-- SP_LIMIT, the largest value SP may hold after a pop (43_stack.md R123, log entry 2). -/
  spLimit : Byte

/-- The values the spec admits: fourteen distinct opcode bytes (30_encoding.md R66) and SP_LIMIT 255 or 244
(43_stack.md R123). -/
def Config.Admissible (c : Config) : Prop :=
  Function.Injective c.opcodeMap ∧ (c.spLimit = 255 ∨ c.spLimit = 244)

/-- MEM_SIZE (00_scope.md R5): addresses below it name a cell. -/
def Config.memSize : Nat := 256

/-- SP_INDEX: the stack pointer is R7 (10_state.md R15). -/
def Config.spIndex : RegIdx := 7

/-- SP_RESET, the reset value of R7 (10_state.md R16). -/
def Config.spReset : Byte := 244

/-- The reset value of FL: no flag set (10_state.md R23, decision D3, log entry 4). -/
def Config.flReset : Byte := 0

end Sys2Proof
end

