-- ==== Sys2Proof/Syntax.lean ====
section
/-! DEFINITION. The fourteen instructions, one constructor per row of the opcode table. A register operand is the whole
operand byte (30_encoding.md R63): the syntax holds every byte value, WellFormed says which are legal, and the machine
raises InvalidRegister on the others. -/

namespace Sys2Proof

/-- An instruction with its operand bytes, `a` before `b` or `imm` (30_encoding.md R61, R64). -/
inductive Instr
  | hlt
  | ret
  | push (a : Byte)
  | pop (a : Byte)
  | prn (a : Byte)
  | pra (a : Byte)
  | call (a : Byte)
  | jmp (a : Byte)
  | jeq (a : Byte)
  | jne (a : Byte)
  | ldi (a imm : Byte)
  | add (a b : Byte)
  | mul (a b : Byte)
  | cmp (a b : Byte)
  deriving DecidableEq, Repr

/-- The row of the opcode table an instruction belongs to. -/
def Instr.mnemonic : Instr → Mnemonic
  | .hlt => .hlt
  | .ret => .ret
  | .push _ => .push
  | .pop _ => .pop
  | .prn _ => .prn
  | .pra _ => .pra
  | .call _ => .call
  | .jmp _ => .jmp
  | .jeq _ => .jeq
  | .jne _ => .jne
  | .ldi _ _ => .ldi
  | .add _ _ => .add
  | .mul _ _ => .mul
  | .cmp _ _ => .cmp

end Sys2Proof
end

