-- ==== Sys2Proof/WellFormed.lean ====
section
/-! DEFINITION. Well-formed instructions: every operand byte that the format declares a register index is 0 to 7. -/

namespace Sys2Proof

/-- The operand bytes that the format declares register indexes, in the order they are checked
(30_encoding.md R61, 40_instruction_cycle.md R86). LDI's immediate is not one of them. -/
def Instr.registerOperands : Instr → List Byte
  | .hlt | .ret => []
  | .push a | .pop a | .prn a | .pra a | .call a | .jmp a | .jeq a | .jne a => [a]
  | .ldi a _ => [a]
  | .add a b | .mul a b | .cmp a b => [a, b]

/-- A register operand byte names a register exactly when it is at most 7 (30_encoding.md R63). -/
def legalRegister (b : Byte) : Bool := decide (b.toNat ≤ 7)

/-- Every register operand is legal; there is no other illegal encoding of a known opcode (30_encoding.md R69). -/
def Instr.wellFormed (i : Instr) : Bool := i.registerOperands.all legalRegister

end Sys2Proof
end

