-- ==== Sys2Proof/Decode.lean ====
section
/-! DEFINITION. The encoding tables of 30_encoding.md, the decoder (total on any bytes, rejecting by name) and the
encoder. The decoder takes OPCODE_MAP as an argument; `decode` and `encode` use the map of this hardware. -/

namespace Sys2Proof

/-- `opcount`, the number of operand bytes, a property of the mnemonic (30_encoding.md R62). -/
def Mnemonic.opcount : Mnemonic → Nat
  | .hlt | .ret => 0
  | .push | .pop | .prn | .pra | .call | .jmp | .jeq | .jne => 1
  | .ldi | .add | .mul | .cmp => 2

/-- How many of the operand bytes are register indexes (the formats Z, R, RI, RR of 30_encoding.md R61). -/
def Mnemonic.registerCount : Mnemonic → Nat
  | .hlt | .ret => 0
  | .push | .pop | .prn | .pra | .call | .jmp | .jeq | .jne => 1
  | .ldi => 1
  | .add | .mul | .cmp => 2

/-- The default OPCODE_MAP (30_encoding.md R66). PRESUMED by the spec itself (decision D1): the bytes of the public LS-8
instruction set; unsafe for claims about concrete bytes, log entry 1. -/
def defaultOpcodeMap : OpcodeMap
  | .hlt  => 0b00000001
  | .ret  => 0b00010001
  | .push => 0b01000101
  | .pop  => 0b01000110
  | .prn  => 0b01000111
  | .pra  => 0b01001000
  | .call => 0b01010000
  | .jmp  => 0b01010100
  | .jeq  => 0b01010101
  | .jne  => 0b01010110
  | .ldi  => 0b10000010
  | .add  => 0b10100000
  | .mul  => 0b10100010
  | .cmp  => 0b10100111

/-- The parameters of this hardware: the default OPCODE_MAP and SP_LIMIT = 255 (00_scope.md R5; log entries 1 and 2). -/
def Config.hw : Config where
  opcodeMap := defaultOpcodeMap
  spLimit := 255

/-- The rows of the opcode table, in its order. -/
def Mnemonic.all : List Mnemonic :=
  [.hlt, .ret, .push, .pop, .prn, .pra, .call, .jmp, .jeq, .jne, .ldi, .add, .mul, .cmp]

/-- Whole-byte match of an opcode against OPCODE_MAP (30_encoding.md R66; no sub-field is read, R67). -/
def OpcodeMap.lookup (m : OpcodeMap) (op : Byte) : Option Mnemonic :=
  Mnemonic.all.find? fun x => m x == op

/-- Why the decoder gives no instruction. -/
inductive DecodeError
  /-- There is no opcode byte. -/
  | noOpcode
  /-- The opcode byte is not in OPCODE_MAP (30_encoding.md R68). -/
  | unknownOpcode (op : Byte)
  /-- The opcode is known and the operand byte at this offset does not exist. -/
  | missingOperand (op : Byte) (offset : Nat)
  deriving DecidableEq, Repr

/-- An instruction with one operand byte, at offset 1. -/
def decodeOne (byteAt : Nat → Option Byte) (op : Byte) (f : Byte → Instr) : Except DecodeError Instr :=
  match byteAt 1 with
  | none => .error (.missingOperand op 1)
  | some a => .ok (f a)

/-- An instruction with two operand bytes, `a` at offset 1 and then `b` at offset 2. -/
def decodeTwo (byteAt : Nat → Option Byte) (op : Byte) (f : Byte → Byte → Instr) : Except DecodeError Instr :=
  match byteAt 1 with
  | none => .error (.missingOperand op 1)
  | some a =>
    match byteAt 2 with
    | none => .error (.missingOperand op 2)
    | some b => .ok (f a b)

/-- Fetch of exactly the operand bytes the mnemonic has, a before b (40_instruction_cycle.md R82). -/
def decodeOperands (byteAt : Nat → Option Byte) (op : Byte) : Mnemonic → Except DecodeError Instr
  | .hlt => .ok .hlt
  | .ret => .ok .ret
  | .push => decodeOne byteAt op .push
  | .pop => decodeOne byteAt op .pop
  | .prn => decodeOne byteAt op .prn
  | .pra => decodeOne byteAt op .pra
  | .call => decodeOne byteAt op .call
  | .jmp => decodeOne byteAt op .jmp
  | .jeq => decodeOne byteAt op .jeq
  | .jne => decodeOne byteAt op .jne
  | .ldi => decodeTwo byteAt op .ldi
  | .add => decodeTwo byteAt op .add
  | .mul => decodeTwo byteAt op .mul
  | .cmp => decodeTwo byteAt op .cmp

/-- Decode from any source of bytes, given by offset: the opcode, then its lookup, then its operands
(40_instruction_cycle.md R80 to R82). An unknown opcode is reported before any operand is looked at. -/
def decodeFrom (m : OpcodeMap) (byteAt : Nat → Option Byte) : Except DecodeError Instr :=
  match byteAt 0 with
  | none => .error .noOpcode
  | some op =>
    match m.lookup op with
    | none => .error (.unknownOpcode op)
    | some x => decodeOperands byteAt op x

/-- An instruction's length in bytes (30_encoding.md R60). -/
def Instr.length (i : Instr) : Nat := 1 + i.mnemonic.opcount

/-- Decode the first instruction of a list of bytes and give the bytes after it. -/
def decodeWith (m : OpcodeMap) (bytes : List Byte) : Except DecodeError (Instr × List Byte) :=
  match decodeFrom m (fun k => bytes[k]?) with
  | .ok i => .ok (i, bytes.drop i.length)
  | .error e => .error e

/-- The decoder of this hardware. -/
def decode (bytes : List Byte) : Except DecodeError (Instr × List Byte) :=
  decodeWith Config.hw.opcodeMap bytes

/-- The bytes of an instruction, from the formats of 30_encoding.md R61: opcode, operand a, operand b. -/
def encodeWith (m : OpcodeMap) (i : Instr) : List Byte :=
  match i with
  | .hlt => [m .hlt]
  | .ret => [m .ret]
  | .push a => [m .push, a]
  | .pop a => [m .pop, a]
  | .prn a => [m .prn, a]
  | .pra a => [m .pra, a]
  | .call a => [m .call, a]
  | .jmp a => [m .jmp, a]
  | .jeq a => [m .jeq, a]
  | .jne a => [m .jne, a]
  | .ldi a imm => [m .ldi, a, imm]
  | .add a b => [m .add, a, b]
  | .mul a b => [m .mul, a, b]
  | .cmp a b => [m .cmp, a, b]

/-- The encoder of this hardware. -/
def encode (i : Instr) : List Byte := encodeWith Config.hw.opcodeMap i

/-- The three bytes at ascending addresses of an instruction whose bits are `w`, bit 0 the least significant bit of the
first byte; bits from `nbits` up are 0. Three is the longest instruction (30_encoding.md R60). -/
def tableBytes (nbits w : Nat) : List Byte :=
  [0, 1, 2].map fun k => if 8 * k < nbits then BitVec.ofNat 8 (w / 256 ^ k) else 0

/-- The instruction the decoder reads from the bits of a table row. -/
def decodeTableWord (nbits w : Nat) : Option Instr :=
  match decode (tableBytes nbits w) with
  | .ok (i, _) => some i
  | .error _ => none

end Sys2Proof
end

