-- ==== Sys2Proof/Machine/State.lean ====
section
/-! DEFINITION. The machine's state, the reasons a step can stop, and the state after reset (10_state.md). -/

namespace Sys2Proof.Machine

/-- The six fault kinds (60_exceptions.md R160). -/
inductive FaultKind
  | unknownInstruction
  | invalidRegister
  | addressOutOfRange
  | stackOverflow
  | stackUnderflow
  | unsupportedALUOperation
  deriving DecidableEq, Repr

/-- `K(info)` of 60_exceptions.md R160, R167: a fault kind together with what the record's info field holds for it. -/
inductive FaultCause
  /-- info: the opcode byte. -/
  | unknownInstruction (op : Byte)
  /-- info: the operand byte. -/
  | invalidRegister (index : Byte)
  /-- info: the address, a natural number (20_memory.md R40). -/
  | addressOutOfRange (address : Nat)
  /-- info: the value of SP. -/
  | stackOverflow (sp : Byte)
  /-- info: the value of SP before the pop. -/
  | stackUnderflow (sp : Byte)
  /-- info: the operation name. Never raised by an instruction (41_load_and_alu.md R104, log entry 17). -/
  | unsupportedALUOperation (name : String)
  deriving DecidableEq, Repr

/-- The FAULT record (10_state.md R26): `cause` holds the fields kind and info (log entry 8). -/
structure FaultRecord where
  /-- The fields kind and info. -/
  cause : FaultCause
  /-- The value of PC at the faulting instruction. -/
  pc : Pc
  /-- The opcode byte, absent when the opcode fetch itself faulted. -/
  opcode : Option Byte
  deriving DecidableEq, Repr

/-- An event of the output stream (10_state.md R28). -/
inductive OutEvent
  /-- From PRN. -/
  | dec (v : Byte)
  /-- From PRA. -/
  | chr (v : Byte)
  deriving DecidableEq, Repr

/-- MEM in its canonical form: the cells that do not hold 0, by strictly rising address (`Memory.wf`). A cell that is not
listed holds 0, the reset content the spec states (10_state.md R11; log entry 16). -/
abbrev Memory := List Host.Cell

/-- The complete state between two steps (10_state.md R29). -/
structure State where
  /-- MEM (10_state.md R10, R11). -/
  mem : Memory
  /-- R0 to R7; slot 7 is SP (10_state.md R12, R15). -/
  regs : Vector Byte 8
  /-- PC, 0 to 256 (10_state.md R18). -/
  pc : Pc
  /-- FL, bit 2 Less, bit 1 Greater, bit 0 Equal (10_state.md R21). -/
  fl : Byte
  /-- RUN (10_state.md R25). -/
  run : Bool
  /-- FAULT (10_state.md R26). -/
  fault : Option FaultRecord
  /-- OUT, oldest event first (10_state.md R28). -/
  out : List OutEvent
  deriving DecidableEq, Repr

/-- Why there is no next state. The faults of the spec are not here: raising one is a next state (60_exceptions.md R167,
log entry 14). Both are answered by `step` alone, in a state with RUN false, which has no next state (10_state.md R25);
both are safe (log entry 13). -/
inductive Fault
  /-- Raised by `step` in a state with RUN false and FAULT none (10_state.md R33). Safe. -/
  | halted
  /-- Raised by `step` in a state with RUN false and a FAULT record (10_state.md R33, 60_exceptions.md R171). Safe. -/
  | faulted
  deriving DecidableEq, Repr

/-- Why an instruction has no meaning. -/
inductive Refusal
  /-- For an arm of `exec` without a meaning; there is none in this model. Safe. -/
  | notModelled (mnemonic : String)
  deriving DecidableEq, Repr

/-- The state after `reset`, before `load` (10_state.md R35, 70_reset_and_hazards.md R190). -/
def State.reset : State where
  mem := []
  regs := #v[0, 0, 0, 0, 0, 0, 0, Config.spReset]
  pc := 0
  fl := Config.flReset
  run := true
  fault := none
  out := []

end Sys2Proof.Machine
end

