-- ==== Sys2Proof/Machine/Ops.lean ====
section
/-! DEFINITION. The named operations over memory, registers, PC, the stack pointer and the output stream, and the one
operation that takes a fault. -/

namespace Sys2Proof.Machine

/-- The content of a cell; a cell that is not listed holds 0 (10_state.md R11). -/
def Memory.read : Memory → Nat → Byte
  | [], _ => 0#8
  | (k, v) :: m, a => if k = a then v else Memory.read m a

/-- Write one cell and keep the canonical form: writing 0 removes the entry (20_memory.md R41). -/
def Memory.write : Memory → Nat → Byte → Memory
  | [], a, v => if v = 0#8 then [] else [(a, v)]
  | (k, w) :: m, a, v =>
    if a < k then (if v = 0#8 then (k, w) :: m else (a, v) :: (k, w) :: m)
    else if a = k then (if v = 0#8 then m else (a, v) :: m)
    else (k, w) :: Memory.write m a v

/-- Entries at addresses from `lo` up, strictly rising, below MEM_SIZE, none holding 0. -/
def Memory.wfFrom : Nat → Memory → Bool
  | _, [] => true
  | lo, (k, v) :: m => decide (lo ≤ k) && decide (k < Config.memSize) && (v != 0#8) && Memory.wfFrom (k + 1) m

/-- The canonical form of memory. -/
def Memory.wf (m : Memory) : Bool := m.wfFrom 0

/-- Write bytes to ascending addresses; addresses that name no cell are passed over. -/
def Memory.writeBytes : Memory → Nat → List Byte → Memory
  | m, _, [] => m
  | m, a, v :: vs => Memory.writeBytes (if a < Config.memSize then m.write a v else m) (a + 1) vs

/-- `R[i]`, the register-file controller's get on a checked index (10_state.md R13). -/
def State.reg (s : State) (r : RegIdx) : Byte := s.regs[r]

/-- Store a byte in a register. -/
def State.setReg (s : State) (r : RegIdx) (v : Byte) : State := { s with regs := s.regs.set r v }

/-- `R[i] <- v`, the controller's set: the value stored is `v mod 256` (10_state.md R14). -/
def State.writeReg (s : State) (r : RegIdx) (v : Nat) : State := s.setReg r (BitVec.ofNat 8 v)

/-- SP, another name of R7 (10_state.md R15). -/
def State.sp (s : State) : Byte := s.reg Config.spIndex

/-- `SP <- v`. -/
def State.setSp (s : State) (v : Byte) : State := s.setReg Config.spIndex v

/-- `PC <- p`. -/
def State.setPc (s : State) (p : Pc) : State := { s with pc := p }

/-- `PC <- b` for a byte: always an address (44_control_transfer.md R135). -/
def State.jump (s : State) (b : Byte) : State := s.setPc (b.setWidth 9)

/-- `PC <- PC + n`; no wrap below 512, and PC never exceeds 256 (40_instruction_cycle.md R84, log entry 5). -/
def State.advance (s : State) (n : Nat) : State := s.setPc (s.pc + BitVec.ofNat 9 n)

/-- `Emit(e)`: append to OUT (10_state.md R28). -/
def State.emit (s : State) (e : OutEvent) : State := { s with out := s.out ++ [e] }

/-- `RUN <- false`. -/
def State.stop (s : State) : State := { s with run := false }

/-- MEM[addr] becomes `v` and no other element changes. -/
def State.storeByte (s : State) (addr : Nat) (v : Byte) : State := { s with mem := s.mem.write addr v }

/-- `MemRead(addr, 1)` (20_memory.md R40). -/
def memRead (s : State) (addr : Nat) : Except FaultCause Byte :=
  if addr ≤ 255 then .ok (s.mem.read addr) else .error (.addressOutOfRange addr)

/-- `MemWrite(addr, 1, v)` (20_memory.md R41). -/
def memWrite (s : State) (addr : Nat) (v : Byte) : Except FaultCause State :=
  if addr ≤ 255 then .ok (s.storeByte addr v) else .error (.addressOutOfRange addr)

/-- The sequencer's decrement of SP, checked and not wrapped (43_stack.md R120, 60_exceptions.md R165). -/
def decrementSp (s : State) : Except FaultCause State :=
  if s.sp = 0#8 then .error (.stackOverflow s.sp) else .ok (s.setSp (s.sp - 1))

/-- The byte on top of the stack and the state with SP incremented, checked against SP_LIMIT and not wrapped
(43_stack.md R120, R123; 60_exceptions.md R166). -/
def popByte (limit : Byte) (s : State) : Except FaultCause (Byte × State) :=
  if limit.toNat < s.sp.toNat + 1 then .error (.stackUnderflow s.sp)
  else do
    let v ← memRead s s.sp.toNat
    .ok (v, s.setSp (s.sp + 1))

/-- CALL's return address PC + 2, a byte or a fault (44_control_transfer.md R133, decision D9, log entry 9). -/
def returnAddress (s : State) : Except FaultCause Byte :=
  if s.pc.toNat + 2 ≤ 255 then .ok (BitVec.ofNat 8 (s.pc.toNat + 2))
  else .error (.addressOutOfRange (s.pc.toNat + 2))

/-- `raise K(info)`: RUN becomes false, FAULT becomes the record, nothing else changes (60_exceptions.md R167). There is no
return from a fault (R171). -/
def raise (cause : FaultCause) (opcode : Option Byte) (s : State) : State :=
  { s with run := false, fault := some ⟨cause, s.pc, opcode⟩ }

/-- The end of an instruction: its handler's state, or, where the handler raises, the state before the instruction with
the fault taken. The handler's partial effects are discarded, so every fault is precise (60_exceptions.md R167, decision
D5, log entry 6). -/
def complete (c : Config) (m : Mnemonic) (s : State) (r : Except FaultCause State) :
    Host.Outcome State Fault Refusal :=
  match r with
  | .ok t => .next t
  | .error k => .next (raise k (some (c.opcodeMap m)) s)

end Sys2Proof.Machine
end

