-- ==== Sys2Proof/Machine/Flags.lean ====
section
/-! DEFINITION. The flags register FL and the compare logic (10_state.md R21, 42_compare.md R110). The bit positions are
the spec's decision D2 (log entry 3); no program can observe them. -/

namespace Sys2Proof.Machine

/-- The bits of FL that exist; bits 7 to 3 are hardwired to 0 (10_state.md R21). -/
def flMask : Byte := 0b00000111

/-- A read of FL. -/
def State.readFl (s : State) : Byte := s.fl &&& flMask

/-- A write of FL. -/
def State.writeFl (s : State) (v : Byte) : State := { s with fl := v &&& flMask }

/-- FL.L, bit 2. -/
def State.less (s : State) : Bool := s.readFl.getLsbD 2

/-- FL.G, bit 1. -/
def State.greater (s : State) : Bool := s.readFl.getLsbD 1

/-- FL.E, bit 0. -/
def State.equal (s : State) : Bool := s.readFl.getLsbD 0

/-- The new value of FL: exactly one flag, by the unsigned order of the two values (42_compare.md R110, R111). -/
def compareFlags (x y : Byte) : Byte :=
  if x.toNat < y.toNat then 0b00000100
  else if y.toNat < x.toNat then 0b00000010
  else 0b00000001

end Sys2Proof.Machine
end

