-- ==== Sys2Proof/Machine/Operands.lean ====
section
/-! DEFINITION. The operand forms (30_encoding.md R61): a register operand, checked; an immediate is its byte. -/

namespace Sys2Proof.Machine

/-- The register an operand byte names, or InvalidRegister(byte): the byte is compared with 7 and not masked
(10_state.md R13, 30_encoding.md R63, 40_instruction_cycle.md R86). -/
def regOperand (b : Byte) : Except FaultCause RegIdx :=
  if h : b.toNat < 8 then .ok ⟨b.toNat, h⟩ else .error (.invalidRegister b)

/-- An immediate operand is the byte itself, unsigned (30_encoding.md R65). -/
def immOperand (b : Byte) : Nat := b.toNat

end Sys2Proof.Machine
end

