-- ==== Sys2Proof/Machine/Compare.lean ====
section
/-! DEFINITION. CMP (42_compare.md). -/

namespace Sys2Proof.Machine

/-- CMP Ra, Rb: both registers read, FL written whole (42_compare.md R110). -/
def cmpHandler (a b : Byte) (s : State) : Except FaultCause State := do
  let ra ← regOperand a
  let rb ← regOperand b
  .ok ((s.writeFl (compareFlags (s.reg ra) (s.reg rb))).advance 3)

/-- CMP (42_compare.md R110). -/
def execCmp (a b : Byte) (s : State) : Host.Outcome State Fault Refusal :=
  complete Config.hw .cmp s (cmpHandler a b s)

end Sys2Proof.Machine
end

