-- ==== Sys2Proof/Machine/Control.lean ====
section
/-! DEFINITION. JMP, JEQ, JNE, CALL and RET (44_control_transfer.md). -/

namespace Sys2Proof.Machine

/-- JMP Ra (44_control_transfer.md R130). -/
def jmpHandler (a : Byte) (s : State) : Except FaultCause State := do
  let ra ← regOperand a
  .ok (s.jump (s.reg ra))

/-- A jump taken on a condition; the operand is checked whether or not it is taken (40_instruction_cycle.md R86). -/
def branchHandler (taken : Bool) (a : Byte) (s : State) : Except FaultCause State := do
  let ra ← regOperand a
  if taken then .ok (s.jump (s.reg ra)) else .ok (s.advance 2)

/-- CALL Ra: overflow check, return address check, push, and the target read after the decrement (44_control_transfer.md
R133, decisions D9 and D10, log entries 9 and 10). -/
def callHandler (a : Byte) (s : State) : Except FaultCause State := do
  let ra ← regOperand a
  let s₁ ← decrementSp s
  let ret ← returnAddress s
  let s₂ ← memWrite s₁ s₁.sp.toNat ret
  .ok (s₂.jump (s₂.reg ra))

/-- RET (44_control_transfer.md R134). -/
def retHandler (limit : Byte) (s : State) : Except FaultCause State := do
  let (v, s₁) ← popByte limit s
  .ok (s₁.jump v)

/-- JMP (44_control_transfer.md R130). -/
def execJmp (a : Byte) (s : State) : Host.Outcome State Fault Refusal :=
  complete Config.hw .jmp s (jmpHandler a s)

/-- JEQ: taken when Equal is set (44_control_transfer.md R131). -/
def execJeq (a : Byte) (s : State) : Host.Outcome State Fault Refusal :=
  complete Config.hw .jeq s (branchHandler s.equal a s)

/-- JNE: taken when Equal is clear (44_control_transfer.md R132). -/
def execJne (a : Byte) (s : State) : Host.Outcome State Fault Refusal :=
  complete Config.hw .jne s (branchHandler (!s.equal) a s)

/-- CALL (44_control_transfer.md R133). -/
def execCall (a : Byte) (s : State) : Host.Outcome State Fault Refusal :=
  complete Config.hw .call s (callHandler a s)

/-- RET (44_control_transfer.md R134). -/
def execRet (s : State) : Host.Outcome State Fault Refusal :=
  complete Config.hw .ret s (retHandler Config.hw.spLimit s)

end Sys2Proof.Machine
end

