-- ==== Sys2Proof/Machine/IoHalt.lean ====
section
/-! DEFINITION. PRN, PRA and HLT (45_io_and_halt.md). -/

namespace Sys2Proof.Machine

/-- Append one event made from a register's value (45_io_and_halt.md R150, R151). -/
def printHandler (event : Byte → OutEvent) (a : Byte) (s : State) : Except FaultCause State := do
  let ra ← regOperand a
  .ok ((s.emit (event (s.reg ra))).advance 2)

/-- HLT: RUN is cleared and PC advances (45_io_and_halt.md R152). -/
def hltHandler (s : State) : Except FaultCause State :=
  .ok (s.stop.advance 1)

/-- PRN (45_io_and_halt.md R150). -/
def execPrn (a : Byte) (s : State) : Host.Outcome State Fault Refusal :=
  complete Config.hw .prn s (printHandler .dec a s)

/-- PRA (45_io_and_halt.md R151). -/
def execPra (a : Byte) (s : State) : Host.Outcome State Fault Refusal :=
  complete Config.hw .pra s (printHandler .chr a s)

/-- HLT (45_io_and_halt.md R152). -/
def execHlt (s : State) : Host.Outcome State Fault Refusal :=
  complete Config.hw .hlt s (hltHandler s)

end Sys2Proof.Machine
end

