-- ==== Sys2Proof/Machine/LoadAlu.lean ====
section
/-! DEFINITION. LDI, ADD and MUL, and the ALU (41_load_and_alu.md). -/

namespace Sys2Proof.Machine

/-- The ALU's operation selector: ADD, MULTIPLY, or any other name (41_load_and_alu.md R104). -/
inductive AluOp
  | add
  | multiply
  | other (name : String)
  deriving DecidableEq, Repr

/-- The ALU's result before the 8-bit register write; any other operation is UnsupportedALUOperation, which no instruction
selects (41_load_and_alu.md R101 to R104, log entry 17). -/
def alu (op : AluOp) (x y : Byte) : Except FaultCause Nat :=
  match op with
  | .add => .ok (x.toNat + y.toNat)
  | .multiply => .ok (x.toNat * y.toNat)
  | .other name => .error (.unsupportedALUOperation name)

/-- `apply(operation, dest, src)` on two register operands: the register write wraps modulo 256 (10_state.md R14). -/
def aluHandler (op : AluOp) (a b : Byte) (s : State) : Except FaultCause State := do
  let ra ← regOperand a
  let rb ← regOperand b
  let v ← alu op (s.reg ra) (s.reg rb)
  .ok ((s.writeReg ra v).advance 3)

/-- LDI Ra, imm (41_load_and_alu.md R100). -/
def ldiHandler (a imm : Byte) (s : State) : Except FaultCause State := do
  let ra ← regOperand a
  .ok ((s.writeReg ra (immOperand imm)).advance 3)

/-- LDI (41_load_and_alu.md R100). -/
def execLdi (a imm : Byte) (s : State) : Host.Outcome State Fault Refusal :=
  complete Config.hw .ldi s (ldiHandler a imm s)

/-- ADD (41_load_and_alu.md R101). -/
def execAdd (a b : Byte) (s : State) : Host.Outcome State Fault Refusal :=
  complete Config.hw .add s (aluHandler .add a b s)

/-- MUL (41_load_and_alu.md R102). -/
def execMul (a b : Byte) (s : State) : Host.Outcome State Fault Refusal :=
  complete Config.hw .mul s (aluHandler .multiply a b s)

end Sys2Proof.Machine
end

