-- ==== Sys2Proof/Machine/Stack.lean ====
section
/-! DEFINITION. PUSH and POP (43_stack.md). -/

namespace Sys2Proof.Machine

/-- PUSH Ra: the register is read after the decrement, which matters only for R7 (43_stack.md R121, decision D10, log
entry 10). -/
def pushHandler (a : Byte) (s : State) : Except FaultCause State := do
  let ra ← regOperand a
  let s₁ ← decrementSp s
  let s₂ ← memWrite s₁ s₁.sp.toNat (s₁.reg ra)
  .ok (s₂.advance 2)

/-- POP Ra: the register is written after the increment, so the popped byte wins for R7 (43_stack.md R122, decision D10,
log entry 10). -/
def popHandler (limit : Byte) (a : Byte) (s : State) : Except FaultCause State := do
  let ra ← regOperand a
  let (v, s₁) ← popByte limit s
  .ok ((s₁.writeReg ra v.toNat).advance 2)

/-- PUSH (43_stack.md R121). -/
def execPush (a : Byte) (s : State) : Host.Outcome State Fault Refusal :=
  complete Config.hw .push s (pushHandler a s)

/-- POP (43_stack.md R122). -/
def execPop (a : Byte) (s : State) : Host.Outcome State Fault Refusal :=
  complete Config.hw .pop s (popHandler Config.hw.spLimit a s)

end Sys2Proof.Machine
end

