-- ==== Sys2Proof/Machine/Fetch.lean ====
section
/-! DEFINITION. Instruction fetch and decode (40_instruction_cycle.md R80 to R82). -/

namespace Sys2Proof.Machine

/-- The byte at PC + k, by `MemRead`; none where the address names no cell (40_instruction_cycle.md R81, R82). -/
def State.fetchByte (s : State) (k : Nat) : Option Byte :=
  match memRead s (s.pc.toNat + k) with
  | .ok v => some v
  | .error _ => none

/-- The fault a failed decode raises, and the opcode byte of its record: absent when the opcode fetch itself faulted
(40_instruction_cycle.md R81, R82). -/
def fetchFault (pc : Pc) : DecodeError → FaultCause × Option Byte
  | .noOpcode => (.addressOutOfRange pc.toNat, none)
  | .unknownOpcode op => (.unknownInstruction op, some op)
  | .missingOperand op k => (.addressOutOfRange (pc.toNat + k), some op)

/-- The instruction at PC, or the fault its fetch raises. -/
def fetch (c : Config) (s : State) : Except (FaultCause × Option Byte) Instr :=
  match decodeFrom c.opcodeMap s.fetchByte with
  | .ok i => .ok i
  | .error e => .error (fetchFault s.pc e)

/-- The outcome of a step asked of a state with RUN false, which has none (10_state.md R25, R33; log entry 13). -/
def finalFault (s : State) : Fault :=
  match s.fault with
  | none => .halted
  | some _ => .faulted

/-- Place bytes from the address in PC upward, with RUN set: what a fetch of them needs (log entry 15). -/
def State.placeAtPc (s : State) (bytes : List Byte) : State :=
  { s with mem := s.mem.writeBytes s.pc.toNat bytes, run := true }

end Sys2Proof.Machine
end

