-- ==== Sys2Proof/Machine/Step.lean ====
section
/-! DEFINITION. One fetch-decode-execute cycle (40_instruction_cycle.md R80, R85). -/

namespace Sys2Proof.Machine

/-- One step: enabled only while RUN is true (40_instruction_cycle.md R85); fetch, decode, then the instruction, or the
fault the fetch raises. -/
def step (s : State) : Host.Outcome State Fault Refusal :=
  if s.run then
    match fetch Config.hw s with
    | .ok i => exec i s
    | .error f => .next (raise f.1 f.2 s)
  else .fault (finalFault s)

/-- The state with an instruction of the opcode table stored where the next step fetches it (log entry 15). -/
def State.withFetchWord (s : State) (nbits w : Nat) : State := s.placeAtPc (tableBytes nbits w)

end Sys2Proof.Machine
end

