-- ==== Sys2Proof/Machine/Observe.lean ====
section
/-! DEFINITION. What the host can observe and do: reset, the end of a run, the fault record's fields and codes, the text
of the output stream, and the debug view (10_state.md R30, R33, R34; 60_exceptions.md R160, R161). -/

namespace Sys2Proof.Machine

/-- The host's reset: every element at its reset value, from any state, memory included (10_state.md R30, decision D17,
log entry 20). -/
def hostReset (_ : State) : State := State.reset

/-- The record's field `kind` (10_state.md R26). -/
def FaultCause.kind : FaultCause → FaultKind
  | .unknownInstruction _ => .unknownInstruction
  | .invalidRegister _ => .invalidRegister
  | .addressOutOfRange _ => .addressOutOfRange
  | .stackOverflow _ => .stackOverflow
  | .stackUnderflow _ => .stackUnderflow
  | .unsupportedALUOperation _ => .unsupportedALUOperation

/-- What the record's field `info` holds: a byte, an address or an operation name (60_exceptions.md R160). -/
inductive FaultInfo
  | byte (b : Byte)
  | address (n : Nat)
  | operationName (name : String)
  deriving DecidableEq, Repr

/-- The record's field `info` (60_exceptions.md R160). -/
def FaultCause.info : FaultCause → FaultInfo
  | .unknownInstruction op => .byte op
  | .invalidRegister b => .byte b
  | .addressOutOfRange a => .address a
  | .stackOverflow sp => .byte sp
  | .stackUnderflow sp => .byte sp
  | .unsupportedALUOperation name => .operationName name

/-- The fault codes 1 to 6 (60_exceptions.md R161, decision D7). -/
def FaultKind.code : FaultKind → Nat
  | .unknownInstruction => 1
  | .invalidRegister => 2
  | .addressOutOfRange => 3
  | .stackOverflow => 4
  | .stackUnderflow => 5
  | .unsupportedALUOperation => 6

/-- The code of FAULT, 0 for none (60_exceptions.md R161). -/
def State.faultCode (s : State) : Nat :=
  match s.fault with
  | none => 0
  | some r => r.cause.kind.code

/-- The source's coarser classes (60_exceptions.md R161). -/
inductive FaultClass
  | unknownInstruction
  | addressOutOfRange
  | unsupportedALUOperation
  deriving DecidableEq, Repr

/-- The class of a kind in the source's §7 list (60_exceptions.md R161). -/
def FaultKind.sourceClass : FaultKind → FaultClass
  | .unknownInstruction => .unknownInstruction
  | .invalidRegister => .addressOutOfRange
  | .addressOutOfRange => .addressOutOfRange
  | .stackOverflow => .addressOutOfRange
  | .stackUnderflow => .addressOutOfRange
  | .unsupportedALUOperation => .unsupportedALUOperation

/-- Where a run stands (10_state.md R33). -/
inductive RunStatus
  | running
  | halted
  | faulted
  deriving DecidableEq, Repr

/-- The end of a run is the first state with RUN false: halted when FAULT is none, else faulted (10_state.md R33). -/
def State.status (s : State) : RunStatus :=
  if s.run then .running
  else match s.fault with
    | none => .halted
    | some _ => .faulted

/-- Whether the ended run gives exit status zero; none while it runs (10_state.md R33, decision D15, log entry 20). -/
def State.exitStatusZero (s : State) : Option Bool :=
  match s.status with
  | .running => none
  | .halted => some true
  | .faulted => some false

/-- The character of a decimal digit. -/
def digitChar (d : Nat) : Char := Char.ofNat (48 + d)

/-- The decimal digits of a byte's value, without leading zeros (45_io_and_halt.md R150). -/
def decimalDigits (v : Nat) : List Nat :=
  if v < 10 then [v]
  else if v < 100 then [v / 10, v % 10]
  else [v / 100, v / 10 % 10, v % 10]

/-- The text of an event: for Dec the digits and one line feed; for Chr the one character with that code point
(45_io_and_halt.md R150, R151; decision D12, log entries 12 and 21). -/
def OutEvent.render : OutEvent → List Char
  | .dec v => (decimalDigits v.toNat).map digitChar ++ [Char.ofNat 10]
  | .chr v => [Char.ofNat v.toNat]

/-- The text the run has emitted so far. -/
def State.outText (s : State) : List Char := s.out.flatMap OutEvent.render

/-- The read-only debug view (10_state.md R34, 60_exceptions.md R181). -/
structure DebugView where
  pc : Pc
  mem : List Byte
  regs : Vector Byte 8
  fl : Byte
  deriving DecidableEq, Repr

/-- Reading the debug view changes nothing and raises nothing (10_state.md R34). -/
def State.debugView (s : State) : DebugView where
  pc := s.pc
  mem := (List.range Config.memSize).map s.mem.read
  regs := s.regs
  fl := s.readFl

end Sys2Proof.Machine
end

