-- ==== Sys2Proof/Machine/Loader.lean ====
section
/-! DEFINITION. The Loader's interface to the unit (10_state.md R31, 70_reset_and_hazards.md R192 to R197), and the text
form of a program image that the external Loader reads (30_encoding.md R71), and the start of the process with its load
failures. -/

namespace Sys2Proof.Machine

/-- A load failure, fatal before the first step (60_exceptions.md R169, 70_reset_and_hazards.md R195, R196). It is no fault
of the unit: the unit takes no step. -/
inductive LoadError
  /-- There is no command-line argument. The source's LoadError has no name for it, this one is the model's (log entry
  25). -/
  | missingArgument
  /-- There is no program file. -/
  | fileNotFound
  /-- A token is not a binary literal of at most 8 digits. -/
  | malformedLiteral (token : List Char)
  /-- The image has more than 256 bytes (decision D16, log entry 19). -/
  | imageTooLong (length : Nat)
  deriving DecidableEq, Repr

/-- `load(image)`: MEM[k] becomes byte k, and nothing else changes (70_reset_and_hazards.md R193, R194). -/
def load (image : List Byte) (s : State) : Except LoadError State :=
  if image.length ≤ Config.memSize then .ok { s with mem := s.mem.writeBytes 0 image }
  else .error (.imageTooLong image.length)

/-- A line from its start to the first `#`, that sign left out (30_encoding.md R71). -/
def stripComment (line : List Char) : List Char := line.takeWhile (· != '#')

/-- The white space of an image line: blank, tab, carriage return and line feed. PRESUMED, unsafe for a line with another
white-space character (log entry 19). -/
def isBlank (c : Char) : Bool := c == ' ' || c == '\t' || c == '\r' || c == '\n'

/-- White space taken off both ends. -/
def trim (cs : List Char) : List Char :=
  ((cs.dropWhile isBlank).reverse.dropWhile isBlank).reverse

/-- The value of a token of binary digits, most significant first (30_encoding.md R71). -/
def binaryValue (cs : List Char) : Nat :=
  cs.foldl (fun n c => 2 * n + (if c == '1' then 1 else 0)) 0

/-- One line: no byte for an empty one, else one byte or a malformed literal (30_encoding.md R71). -/
def parseLine (line : List Char) : Except LoadError (Option Byte) :=
  match trim (stripComment line) with
  | [] => .ok none
  | tok@(_ :: _) =>
    if tok.length ≤ 8 ∧ tok.all (fun c => c == '0' || c == '1') then .ok (some (BitVec.ofNat 8 (binaryValue tok)))
    else .error (.malformedLiteral tok)

/-- The bytes of the lines in order (70_reset_and_hazards.md R193, R195); of several malformed lines the first is the error
(DESIGN CHOICE, log entry 25). -/
def parseLines : List (List Char) → Except LoadError (List Byte)
  | [] => .ok []
  | l :: ls => do
    let b ← parseLine l
    let bs ← parseLines ls
    .ok (b.toList ++ bs)

/-- The lines of a text. -/
def splitLines : List Char → List (List Char)
  | [] => [[]]
  | c :: cs =>
    if c == '\n' then [] :: splitLines cs
    else match splitLines cs with
      | [] => [[c]]
      | l :: ls => (c :: l) :: ls

/-- Start-up: reset, then load, then the first step may follow; an error where there is no file, a malformed literal or an
image that is too long (70_reset_and_hazards.md R192, R195, R196). DESIGN CHOICE, unsafe for which failure is named: every
line is parsed before the image's length is looked at, so a text with a malformed literal and more than 256 valid bytes is
reported as the malformed literal, wherever it stands (log entry 25). -/
def startUp (file : Option (List Char)) : Except LoadError State :=
  match file with
  | none => .error .fileNotFound
  | some text => do
    let image ← parseLines (splitLines text)
    load image State.reset

/-- What the process is started with: no program argument, or the one argument of the command line, whose file is absent or
holds a text (70_reset_and_hazards.md R193, R195). -/
inductive Invocation
  | noArgument
  | program (file : Option (List Char))
  deriving DecidableEq, Repr

/-- The start of the process: the state the first step starts from, or a load failure, fatal before it
(70_reset_and_hazards.md R195). -/
def launch : Invocation → Except LoadError State
  | .noArgument => .error .missingArgument
  | .program file => startUp file

/-- Whether the process has ended with exit status zero, none while it runs: a load failure has ended it with another status
before any instruction executes (70_reset_and_hazards.md R195); else the unit's state says so (10_state.md R33). -/
def processExitStatusZero : Except LoadError State → Option Bool
  | .error _ => some false
  | .ok s => s.exitStatusZero

end Sys2Proof.Machine
end

