-- ==== Sys2Proof/Machine/Parametric.lean ====
section
/-! DEFINITION. The same machine over any Config: the spec keeps OPCODE_MAP and SP_LIMIT as parameters of the model
(00_scope.md R5, 92_eei_decisions.md D1 and D8). `exec` and `step` are the case Config.hw (Laws/Parametric.lean). -/

namespace Sys2Proof.Machine

/-- The handler of an instruction (40_instruction_cycle.md R83); only POP and RET depend on SP_LIMIT. -/
def handler (limit : Byte) (i : Instr) (s : State) : Except FaultCause State :=
  match i with
  | .hlt => hltHandler s
  | .ret => retHandler limit s
  | .push a => pushHandler a s
  | .pop a => popHandler limit a s
  | .prn a => printHandler .dec a s
  | .pra a => printHandler .chr a s
  | .call a => callHandler a s
  | .jmp a => jmpHandler a s
  | .jeq a => branchHandler s.equal a s
  | .jne a => branchHandler (!s.equal) a s
  | .ldi a imm => ldiHandler a imm s
  | .add a b => aluHandler .add a b s
  | .mul a b => aluHandler .multiply a b s
  | .cmp a b => cmpHandler a b s

/-- `exec` under any Config. -/
def execWith (c : Config) (i : Instr) (s : State) : Host.Outcome State Fault Refusal :=
  complete c i.mnemonic s (handler c.spLimit i s)

/-- `step` under any Config. -/
def stepWith (c : Config) (s : State) : Host.Outcome State Fault Refusal :=
  if s.run then
    match fetch c s with
    | .ok i => execWith c i s
    | .error f => .next (raise f.1 f.2 s)
  else .fault (finalFault s)

end Sys2Proof.Machine
end

