-- ==== Sys2Proof/Safety.lean ====
section
/-! DEFINITION. The terms the claims are stated in: what a transition leaves unchanged, the machine's invariant, the order
of fault checks as a table, the registers an instruction touches, and runs of several instructions. -/

namespace Sys2Proof

/-- The registers an instruction reads or writes, by index (10_state.md R17); `equal` is the Equal flag, which decides
whether JEQ and JNE read their register. -/
def Instr.touchedRegisters (equal : Bool) : Instr → List Nat
  | .hlt => []
  | .ret => [7]
  | .push a | .pop a | .call a => [7, a.toNat]
  | .prn a | .pra a | .jmp a => [a.toNat]
  | .jeq a => if equal then [a.toNat] else []
  | .jne a => if equal then [] else [a.toNat]
  | .ldi a _ => [a.toNat]
  | .add a b | .mul a b | .cmp a b => [a.toNat, b.toNat]

/-- The registers an instruction may write, by index (10_state.md R17). -/
def Instr.writtenRegisters : Instr → List Nat
  | .hlt | .prn _ | .pra _ | .jmp _ | .jeq _ | .jne _ | .cmp _ _ => []
  | .ret | .push _ | .call _ => [7]
  | .pop a => [7, a.toNat]
  | .ldi a _ | .add a _ | .mul a _ => [a.toNat]

end Sys2Proof

namespace Sys2Proof.Machine

/-- Every byte of memory reads as before. -/
def SameMemory (s t : State) : Prop := ∀ a : Nat, t.mem.read a = s.mem.read a

/-- Every byte of memory outside one address reads as before. -/
def SameMemoryExcept (addr : Nat) (s t : State) : Prop := ∀ a : Nat, a ≠ addr → t.mem.read a = s.mem.read a

/-- Every register outside the list is unchanged. -/
def SameRegistersExcept (rs : List RegIdx) (s t : State) : Prop := ∀ q : RegIdx, q ∉ rs → t.reg q = s.reg q

/-- The running flag and the fault status are unchanged. -/
def SameRunAndFault (s t : State) : Prop := t.run = s.run ∧ t.fault = s.fault

/-- PC moves on by `n`, without wrapping wherever the sum is at most 256 (40_instruction_cycle.md R84). -/
def PcAdvanced (n : Nat) (s t : State) : Prop :=
  t.pc = s.pc + BitVec.ofNat 9 n ∧ (s.pc.toNat + n ≤ 256 → t.pc.toNat = s.pc.toNat + n)

/-- The fault an instruction takes: the record holds its own opcode byte. -/
def Trapped (i : Instr) (k : FaultCause) (s : State) : State := raise k (some (Config.hw.opcodeMap i.mnemonic)) s

/-- The values FL can have (10_state.md R24). -/
def flLegal (fl : Byte) : Bool := fl == 0 || fl == 1 || fl == 2 || fl == 4

/-- A FAULT record says what 60_exceptions.md R160 and R167 say it holds, in the faulted state `s`. -/
def FaultRecord.Sound (c : Config) (s : State) (r : FaultRecord) : Prop :=
  s.run = false ∧ r.pc = s.pc ∧
  match r.cause with
  | .unknownInstruction op => r.opcode = some op ∧ ∀ x, c.opcodeMap x ≠ op
  | .invalidRegister b => 7 < b.toNat ∧ ∃ x : Mnemonic, 0 < x.registerCount ∧ r.opcode = some (c.opcodeMap x)
  | .addressOutOfRange a =>
      a = 256 ∧ ((s.pc.toNat = 256 ∧ r.opcode = none) ∨
        (s.pc.toNat < 256 ∧ ∃ x : Mnemonic, 0 < x.opcount ∧ r.opcode = some (c.opcodeMap x)))
  | .stackOverflow sp =>
      sp = 0 ∧ s.sp = 0 ∧ ∃ x : Mnemonic, (x = .push ∨ x = .call) ∧ r.opcode = some (c.opcodeMap x)
  | .stackUnderflow sp =>
      sp = s.sp ∧ c.spLimit.toNat < sp.toNat + 1 ∧
        ∃ x : Mnemonic, (x = .pop ∨ x = .ret) ∧ r.opcode = some (c.opcodeMap x)
  | .unsupportedALUOperation _ => False

/-- The machine's invariant: memory in canonical form inside 0 to 255, PC at most 256 (10_state.md R18), FL one of
0, 1, 2, 4 (R24), and a FAULT record only in a stopped state and sound (R26). -/
structure State.Inv (c : Config) (s : State) : Prop where
  mem_wf : s.mem.wf = true
  pc_le : s.pc.toNat ≤ 256
  fl_legal : flLegal s.fl = true
  fault_sound : ∀ r, s.fault = some r → r.Sound c s

/-- The checks of 40_instruction_cycle.md R87 in their order: whether the condition holds, and the fault with the opcode
field of its record. Conditions below one that holds are not looked at. -/
def faultChecks (c : Config) (s : State) : List (Bool × FaultCause × Option Byte) :=
  let pc := s.pc.toNat
  let op := s.mem.read pc
  let x := c.opcodeMap.lookup op
  let n := (x.map Mnemonic.opcount).getD 0
  let regs := (x.map Mnemonic.registerCount).getD 0
  let a := s.mem.read (pc + 1)
  let b := s.mem.read (pc + 2)
  [ (decide (255 < pc), .addressOutOfRange pc, none),
    (decide (x = none), .unknownInstruction op, some op),
    (decide (1 ≤ n ∧ 255 < pc + 1), .addressOutOfRange (pc + 1), some op),
    (decide (n = 2 ∧ 255 < pc + 2), .addressOutOfRange (pc + 2), some op),
    (decide (1 ≤ regs ∧ 7 < a.toNat), .invalidRegister a, some op),
    (decide (regs = 2 ∧ 7 < b.toNat), .invalidRegister b, some op),
    (decide ((x = some .push ∨ x = some .call) ∧ s.sp = 0#8), .stackOverflow s.sp, some op),
    (decide (x = some .call ∧ 255 < pc + 2), .addressOutOfRange (pc + 2), some op),
    (decide ((x = some .pop ∨ x = some .ret) ∧ c.spLimit.toNat < s.sp.toNat + 1), .stackUnderflow s.sp, some op) ]

/-- The first check that holds, if any. -/
def firstFault (c : Config) (s : State) : Option (FaultCause × Option Byte) :=
  ((faultChecks c s).find? (·.1)).map (·.2)

/-- The bytes are the cells from PC upward. -/
def State.Holds (s : State) (bytes : List Byte) : Prop :=
  ∀ k (h : k < bytes.length), s.pc.toNat + k ≤ 255 ∧ s.mem.read (s.pc.toNat + k) = bytes[k]

/-- The same state with another value in FL. -/
def State.withFl (s : State) (v : Byte) : State := { s with fl := v }

/-- The same state with another output stream. -/
def State.withOut (s : State) (es : List OutEvent) : State := { s with out := es }

/-- Instructions executed one after another, up to the first stop. -/
def execAll : List Instr → State → Host.Outcome State Fault Refusal
  | [], s => .next s
  | i :: is, s =>
    match exec i s with
    | .next t => execAll is t
    | .fault r => .fault r
    | .refused r => .refused r

/-- A number of steps, up to the first stop (10_state.md R32: `run` is `step` repeated while RUN is true). -/
def runSteps : Nat → State → Host.Outcome State Fault Refusal
  | 0, s => .next s
  | n + 1, s =>
    match step s with
    | .next t => runSteps n t
    | .fault r => .fault r
    | .refused r => .refused r

/-- The operand byte that names a register. -/
def regByte (r : RegIdx) : Byte := BitVec.ofNat 8 r.val

/-- The eight binary digits of a byte, most significant first (30_encoding.md R71). -/
def binaryDigits (b : Byte) : List Char :=
  [7, 6, 5, 4, 3, 2, 1, 0].map fun k => if b.getLsbD k then '1' else '0'

/-- An image as text: for each byte its digits, a blank, a comment, and a line feed (30_encoding.md R71). -/
def imageText (comment : List Char) : List Byte → List Char
  | [] => []
  | b :: bs => binaryDigits b ++ ' ' :: '#' :: comment ++ '\n' :: imageText comment bs

end Sys2Proof.Machine
end

