-- ==== Sys2Proof/Certificates/Slice0/Obligations.lean ====
section
/-! DEFINITION. The statements about the model. Each docstring names the rule of spec/ it formalises; where a clause rests
on a decision the spec marks as its own, the docstring names the decision and the log entry. Wherever a statement gives the
state a fault leaves (`raise`, `Trapped`), that nothing but RUN and FAULT changes is decision D5 (log entry 6) and the form of
the FAULT record is decision D7 (log entry 8). -/

open Sys2Proof Sys2Proof.Machine

/-! ## Encoding -/

/-- Words written out from 30_encoding.md R66 decode to the instructions they stand for, one per format and family, with
operand bytes kept apart. The byte values are decision D1 (log entry 1). -/
def Obligations.EncodingTableDecodes : Prop :=
  decode [0b00000001] = .ok (.hlt, []) ∧
  decode [0b00010001, 9] = .ok (.ret, [9]) ∧
  decode [0b01000101, 7] = .ok (.push 7, []) ∧
  decode [0b01000110, 255] = .ok (.pop 255, []) ∧
  decode [0b01000111, 1] = .ok (.prn 1, []) ∧
  decode [0b01001000, 2] = .ok (.pra 2, []) ∧
  decode [0b01010000, 3] = .ok (.call 3, []) ∧
  decode [0b01010100, 4] = .ok (.jmp 4, []) ∧
  decode [0b01010101, 5] = .ok (.jeq 5, []) ∧
  decode [0b01010110, 6] = .ok (.jne 6, []) ∧
  decode [0b10000010, 1, 8] = .ok (.ldi 1 8, []) ∧
  decode [0b10100000, 2, 3] = .ok (.add 2 3, []) ∧
  decode [0b10100010, 4, 5] = .ok (.mul 4 5, []) ∧
  decode [0b10100111, 6, 7, 1] = .ok (.cmp 6 7, [1])

/-- 30_encoding.md R62: the operand counts of the table, for any OPCODE_MAP the number of bytes after the opcode byte; with
the default map the count equals the opcode's top two bits, but the count the decoder uses is that of the row the whole
opcode byte selects. -/
def Obligations.OperandCountsAreTheTables : Prop :=
  Mnemonic.opcount .hlt = 0 ∧ Mnemonic.opcount .ret = 0 ∧
  (∀ x ∈ [Mnemonic.prn, .pra, .push, .pop, .call, .jmp, .jeq, .jne], x.opcount = 1) ∧
  (∀ x ∈ [Mnemonic.ldi, .add, .mul, .cmp], x.opcount = 2) ∧
  (∀ (m : OpcodeMap) (i : Instr), (encodeWith m i).length = 1 + i.mnemonic.opcount) ∧
  (∀ (m : OpcodeMap) (op : Byte) (rest tail : List Byte) (i : Instr),
    decodeWith m (op :: rest) = .ok (i, tail) → ∃ x, m.lookup op = some x ∧ tail = rest.drop x.opcount) ∧
  (∀ x : Mnemonic, (defaultOpcodeMap x).toNat / 64 = x.opcount)

/-- For every injective OPCODE_MAP and every instruction with any operand bytes, decoding its bytes, whatever follows them,
gives it back and leaves what follows (30_encoding.md R60 to R66). -/
def Obligations.DecodeOfEncodeIsTheInstruction : Prop :=
  ∀ (m : OpcodeMap), Function.Injective m → ∀ (i : Instr) (rest : List Byte),
    decodeWith m (encodeWith m i ++ rest) = .ok (i, rest)

/-- The other direction, for any OPCODE_MAP: bytes that decode to an instruction are its encoding and the bytes left
(30_encoding.md R60 to R66). -/
def Obligations.EncodeOfDecodeIsTheBytes : Prop :=
  ∀ (m : OpcodeMap) (bytes rest : List Byte) (i : Instr),
    decodeWith m bytes = .ok (i, rest) → bytes = encodeWith m i ++ rest

/-- 30_encoding.md R68: exactly the bytes outside the fourteen of the default map are unknown opcodes, 0x00 among them,
whatever follows them. The byte values are decision D1 (log entry 1). -/
def Obligations.UnknownOpcodesAreRejected : Prop :=
  (∀ (op : Byte) (rest : List Byte), decode (op :: rest) = .error (.unknownOpcode op) ↔
    op ∉ ([0x01, 0x11, 0x45, 0x46, 0x47, 0x48, 0x50, 0x54, 0x55, 0x56, 0x82, 0xA0, 0xA2, 0xA7] : List Byte)) ∧
  ∀ rest : List Byte, decode (0x00 :: rest) = .error (.unknownOpcode 0x00)

/-! ## The step -/

/-- While RUN is true, a step is `exec` of the instruction the cells from PC decode to, at that state, and adds nothing to
it (40_instruction_cycle.md R80). It holds for every instruction, well formed or not. -/
def Obligations.StepRunsTheDecodedInstruction : Prop :=
  ∀ (s : State) (bytes rest : List Byte) (i : Instr),
    s.run = true → s.Holds bytes → decode bytes = .ok (i, rest) → step s = exec i s

/-- The word of a table row placed by withFetchWord is run by the very next step (log entry 15). -/
def Obligations.PlacedWordRunsNext : Prop :=
  ∀ (s : State) (nbits w : Nat) (i : Instr),
    s.mem.wf = true → s.pc.toNat + 2 ≤ 255 → decodeTableWord nbits w = some i →
      step (s.withFetchWord nbits w) = exec i (s.withFetchWord nbits w)

/-- The faults of fetch and decode (40_instruction_cycle.md R81, R82; decision D4, log entry 5): PC = 256 raises
AddressOutOfRange(256) without an opcode; an unknown opcode raises UnknownInstruction before any operand is fetched; a known
opcode whose operand a or b would be at 256 raises AddressOutOfRange(256). That the address is 256 also for a two-operand
opcode at 255 is DEDUCED (log entry 23). -/
def Obligations.FetchFaultsAreTaken : Prop :=
  (∀ s : State, s.run = true → s.pc.toNat = 256 → step s = .next (raise (.addressOutOfRange 256) none s)) ∧
  (∀ (s : State) (op : Byte), s.run = true → s.pc.toNat ≤ 255 → s.mem.read s.pc.toNat = op →
    (∀ x, Config.hw.opcodeMap x ≠ op) → step s = .next (raise (.unknownInstruction op) (some op) s)) ∧
  (∀ (s : State) (x : Mnemonic), s.run = true → s.pc.toNat ≤ 255 →
    s.mem.read s.pc.toNat = Config.hw.opcodeMap x → 255 < s.pc.toNat + x.opcount →
    step s = .next (raise (.addressOutOfRange 256) (some (Config.hw.opcodeMap x)) s))

/-- 40_instruction_cycle.md R87 and R88, under any Config (the order is decision D6, log entry 7; single rows rest on D4, the
fetch at 256, log entry 5, on D9, CALL's return address, log entry 9, on D11, the check of a register that is not read, log
entry 11, on log entry 23, DEDUCED, for the address of a two-operand opcode at 255, and on D5, no effect of a faulting
instruction, log entry 6): from every running state with PC at most 256, the step takes the first fault of the table of
checks, with that table's record, and where no check holds it completes, leaves FAULT as it was and writes PC: the next address, or
for a control transfer an address. -/
def Obligations.StepTakesTheFirstFaultInOrder : Prop :=
  ∀ (c : Config) (s : State), s.run = true → s.pc.toNat ≤ 256 →
    (∀ f, firstFault c s = some f → stepWith c s = .next (raise f.1 f.2 s)) ∧
    (firstFault c s = none → ∃ (i : Instr) (t : State), s.Holds (encodeWith c.opcodeMap i) ∧
      stepWith c s = .next t ∧ t.fault = s.fault ∧
      (PcAdvanced i.length s t ∨ (t.pc.toNat ≤ 255 ∧ i.mnemonic ∈ [Mnemonic.jmp, .jeq, .jne, .call, .ret])))

/-- 10_state.md R25: RUN is true after reset; a step is taken only while it is true, and a state with RUN false has no next
state; HLT clears it; every fault clears it; no instruction sets it, and only reset makes it true again. That a fault's state
is `raise` is decision D5 (log entry 6). -/
def Obligations.RunIsClearedByHltAndFaults : Prop :=
  State.reset.run = true ∧
  (∀ s t : State, step s = .next t → s.run = true) ∧
  (∀ s : State, s.run = false → ∃ r, step s = .fault r) ∧
  (∀ s : State, ∃ t, exec .hlt s = .next t ∧ t.run = false) ∧
  (∀ (k : FaultCause) (op : Option Byte) (s : State), (raise k op s).run = false) ∧
  (∀ (i : Instr) (s t : State), exec i s = .next t → s.run = false → t.run = false) ∧
  (∀ (i : Instr) (s t : State), exec i s = .next t → s.run = true → t.run = false →
    i = .hlt ∨ ∃ k op, t = raise k op s) ∧
  (∀ s : State, (hostReset s).run = true)

/-- 40_instruction_cycle.md R85: with RUN false there is no step, with RUN true there always is one; HLT completes, RUN
cleared and PC advanced, from 255 to 256 too (decision D4, log entry 5); a step that detects a fault changes RUN and FAULT
alone (decision D5, log entry 6); nothing else ends the loop. -/
def Obligations.LoopEndsOnlyByHltOrFault : Prop :=
  (∀ s : State, s.run = false → ∀ t, step s ≠ .next t) ∧
  (∀ s : State, s.run = true → ∃ t, step s = .next t) ∧
  (∀ s : State, s.run = true → s.Holds (encode .hlt) →
    ∃ t, step s = .next t ∧ t.run = false ∧ t.fault = s.fault ∧ PcAdvanced 1 s t) ∧
  (∀ s t : State, step s = .next t → t.run = false →
    (s.Holds (encode .hlt) ∧ t = s.stop.advance 1) ∨ ∃ k op, t = raise k op s)

/-- 60_exceptions.md R171: a stopped state with a FAULT record has no next step; no step and no instruction clears a
record; a state the run can be in (the invariant holds) that carries a record is never replaced by another; host reset alone
goes on, from the reset state. -/
def Obligations.FaultedStateIsFinal : Prop :=
  (∀ (s : State) (r : FaultRecord), s.run = false → s.fault = some r → step s = .fault .faulted) ∧
  (∀ (c : Config) (s : State) (r : FaultRecord), s.Inv c → s.fault = some r → ∀ t, step s ≠ .next t) ∧
  (∀ (i : Instr) (s t : State), exec i s = .next t → s.fault ≠ none → t.fault ≠ none) ∧
  (∀ s : State, hostReset s = State.reset ∧ (hostReset s).fault = none)

/-- Faults are precise (60_exceptions.md R167; decisions D5 and D7, log entries 6 and 8): whatever instruction runs,
either FAULT is left as it was, or RUN and FAULT are all that changed, the record holding PC and the instruction's opcode byte. -/
def Obligations.FaultsArePrecise : Prop :=
  ∀ (i : Instr) (s t : State), exec i s = .next t →
    t.fault = s.fault ∨
    (∃ k, t.fault = some ⟨k, s.pc, some (Config.hw.opcodeMap i.mnemonic)⟩ ∧ t.run = false ∧ t.mem = s.mem ∧
      (∀ q, t.reg q = s.reg q) ∧ t.pc = s.pc ∧ t.fl = s.fl ∧ t.out = s.out)

/-! ## Reset, load and the invariant -/

/-- The whole reset state (10_state.md R35). The values of FL, FAULT and OUT are the spec's decisions D3, D7 and D12 (log
entries 4, 8 and 12). -/
def Obligations.ResetStateIsTheTables : Prop :=
  (∀ a : Nat, State.reset.mem.read a = 0) ∧ (∀ q : RegIdx, State.reset.reg q = if q = 7 then 244 else 0) ∧
  State.reset.pc = 0 ∧ State.reset.fl = 0 ∧ State.reset.run = true ∧ State.reset.fault = none ∧ State.reset.out = []

/-- 10_state.md R16: R0 to R6 are 0 after reset and R7 is 244. -/
def Obligations.RegistersAtReset : Prop :=
  (∀ q : RegIdx, q.val ≤ 6 → State.reset.reg q = 0) ∧ State.reset.reg 7 = 244 ∧ State.reset.sp = 0xF4

/-- The reset state meets the invariant, under any Config (10_state.md R35). -/
def Obligations.ResetMeetsTheInvariant : Prop :=
  ∀ c : Config, State.reset.Inv c

/-- The invariant is kept by every step of the machine, and by every step under any Config: memory stays canonical, PC at
most 256 (10_state.md R18), FL one of 0, 1, 2, 4 (R24), a FAULT record sound and only in a stopped state (R26,
60_exceptions.md R160). It rests on decisions D2, D4, D5, D7 and D18 (log entries 3, 5, 6, 8 and 17), on the model's form of
memory (log entry 16) and, for the address 256 in a record, on log entry 23 (DEDUCED). -/
def Obligations.StepKeepsTheInvariant : Prop :=
  (∀ s t : State, s.Inv Config.hw → step s = .next t → t.Inv Config.hw) ∧
  (∀ (c : Config) (s t : State), s.Inv c → stepWith c s = .next t → t.Inv c)

/-- 70_reset_and_hazards.md R193 and R194: after reset the Loader writes image byte k to MEM[k], cells beyond the image keep
0, nothing but MEM changes, and loaded zeros cannot be told from untouched cells. -/
def Obligations.LoadWritesTheImageOnly : Prop :=
  ∀ image : List Byte, image.length ≤ 256 → ∃ t, load image State.reset = .ok t ∧
    (∀ k (h : k < image.length), t.mem.read k = image[k]) ∧
    (∀ k, image.length ≤ k → t.mem.read k = 0) ∧
    (∀ q, t.reg q = State.reset.reg q) ∧ t.pc = State.reset.pc ∧ t.fl = State.reset.fl ∧ t.run = State.reset.run ∧
    t.fault = State.reset.fault ∧ t.out = State.reset.out ∧
    (∀ n, image.length + n ≤ 256 → load (image ++ List.replicate n 0) State.reset = .ok t)

/-- An empty image faults at address 0 with UnknownInstruction(0x00) (70_reset_and_hazards.md R197, derived there). -/
def Obligations.EmptyImageFaultsAtZero : Prop :=
  load [] State.reset = .ok State.reset ∧
  step State.reset = .next (raise (.unknownInstruction 0x00) (some 0x00) State.reset)

/-- An image of more than 256 bytes is a load failure (70_reset_and_hazards.md R196; decision D16, log entry 19). -/
def Obligations.LongImageIsALoadFailure : Prop :=
  ∀ (image : List Byte) (s : State), 256 < image.length → load image s = .error (.imageTooLong image.length)

/-- The text form of an image, one byte a line with a comment of any text, starts the machine with exactly that image
(30_encoding.md R71, 70_reset_and_hazards.md R192; log entry 19). -/
def Obligations.ImageTextIsLoadedByteForByte : Prop :=
  ∀ (comment : List Char) (image : List Byte), '\n' ∉ comment →
    startUp (some (imageText comment image)) = load image State.reset

/-! ## Instructions: result and frame -/

/-- LDI (41_load_and_alu.md R100), for every destination, R7 included, and every immediate. -/
def Obligations.LdiLoadsTheImmediate : Prop :=
  ∀ (s : State) (a imm : Byte) (ra : RegIdx), a.toNat = ra.val →
    ∃ t, exec (.ldi a imm) s = .next t ∧ t.reg ra = imm ∧ SameRegistersExcept [ra] s t ∧ SameMemory s t ∧
      t.fl = s.fl ∧ SameRunAndFault s t ∧ t.out = s.out ∧ PcAdvanced 3 s t

/-- ADD (41_load_and_alu.md R101): the sum modulo 256 into the first register, also when both are the same or R7. -/
def Obligations.AddWrapsModulo256 : Prop :=
  ∀ (s : State) (a b : Byte) (ra rb : RegIdx), a.toNat = ra.val → b.toNat = rb.val →
    ∃ t, exec (.add a b) s = .next t ∧ (t.reg ra).toNat = ((s.reg ra).toNat + (s.reg rb).toNat) % 256 ∧
      SameRegistersExcept [ra] s t ∧ SameMemory s t ∧ t.fl = s.fl ∧ SameRunAndFault s t ∧ t.out = s.out ∧
      PcAdvanced 3 s t

/-- MUL (41_load_and_alu.md R102): the product modulo 256 into the first register. -/
def Obligations.MulWrapsModulo256 : Prop :=
  ∀ (s : State) (a b : Byte) (ra rb : RegIdx), a.toNat = ra.val → b.toNat = rb.val →
    ∃ t, exec (.mul a b) s = .next t ∧ (t.reg ra).toNat = ((s.reg ra).toNat * (s.reg rb).toNat) % 256 ∧
      SameRegistersExcept [ra] s t ∧ SameMemory s t ∧ t.fl = s.fl ∧ SameRunAndFault s t ∧ t.out = s.out ∧
      PcAdvanced 3 s t

/-- CMP (42_compare.md R110, R111): FL is 4, 2 or 1 by the unsigned order, whatever it was; nothing else changes but PC.
The bit positions are decision D2 (log entry 3). -/
def Obligations.CmpSetsExactlyOneFlag : Prop :=
  ∀ (s : State) (a b : Byte) (ra rb : RegIdx), a.toNat = ra.val → b.toNat = rb.val →
    ∃ t, exec (.cmp a b) s = .next t ∧
      ((s.reg ra).toNat < (s.reg rb).toNat → t.fl = 4 ∧ t.less = true ∧ t.greater = false ∧ t.equal = false) ∧
      ((s.reg rb).toNat < (s.reg ra).toNat → t.fl = 2 ∧ t.less = false ∧ t.greater = true ∧ t.equal = false) ∧
      (s.reg ra = s.reg rb → t.fl = 1 ∧ t.less = false ∧ t.greater = false ∧ t.equal = true) ∧
      SameRegistersExcept [] s t ∧ SameMemory s t ∧ SameRunAndFault s t ∧ t.out = s.out ∧ PcAdvanced 3 s t

/-- PUSH (43_stack.md R121): SP down by one, the register's value at the new SP; for R7 the value is the decremented SP
(decision D10, log entry 10). -/
def Obligations.PushStoresBelowTheStackTop : Prop :=
  ∀ (s : State) (a : Byte) (ra : RegIdx), s.mem.wf = true → a.toNat = ra.val → s.sp ≠ 0 →
    ∃ t, exec (.push a) s = .next t ∧ t.sp.toNat = s.sp.toNat - 1 ∧
      t.mem.read (s.sp - 1).toNat = (if ra = 7 then s.sp - 1 else s.reg ra) ∧
      SameMemoryExcept (s.sp - 1).toNat s t ∧ SameRegistersExcept [7] s t ∧
      t.fl = s.fl ∧ SameRunAndFault s t ∧ t.out = s.out ∧ PcAdvanced 2 s t

/-- POP (43_stack.md R122): the byte at SP into the register, SP up by one; for R7 the popped byte wins (decision D10, log
entry 10). The bound is SP_LIMIT = 255 (decision D8, log entry 2). -/
def Obligations.PopLoadsTheStackTop : Prop :=
  ∀ (s : State) (a : Byte) (ra : RegIdx), a.toNat = ra.val → s.sp.toNat + 1 ≤ 255 →
    ∃ t, exec (.pop a) s = .next t ∧ t.reg ra = s.mem.read s.sp.toNat ∧
      (ra ≠ 7 → t.sp.toNat = s.sp.toNat + 1) ∧ SameRegistersExcept [7, ra] s t ∧ SameMemory s t ∧
      t.fl = s.fl ∧ SameRunAndFault s t ∧ t.out = s.out ∧ PcAdvanced 2 s t

/-- JMP (44_control_transfer.md R130): PC is the register's value, any of 0 to 255. -/
def Obligations.JmpLoadsPc : Prop :=
  ∀ (s : State) (a : Byte) (ra : RegIdx), a.toNat = ra.val →
    ∃ t, exec (.jmp a) s = .next t ∧ t.pc.toNat = (s.reg ra).toNat ∧ SameRegistersExcept [] s t ∧ SameMemory s t ∧
      t.fl = s.fl ∧ SameRunAndFault s t ∧ t.out = s.out

/-- JEQ (44_control_transfer.md R131): taken exactly when Equal is set, else PC advances by 2. -/
def Obligations.JeqJumpsWhenEqual : Prop :=
  ∀ (s : State) (a : Byte) (ra : RegIdx), a.toNat = ra.val →
    ∃ t, exec (.jeq a) s = .next t ∧ (s.equal = true → t.pc.toNat = (s.reg ra).toNat) ∧
      (s.equal = false → PcAdvanced 2 s t) ∧ SameRegistersExcept [] s t ∧ SameMemory s t ∧
      t.fl = s.fl ∧ SameRunAndFault s t ∧ t.out = s.out

/-- JNE (44_control_transfer.md R132): taken exactly when Equal is clear, else PC advances by 2. -/
def Obligations.JneJumpsWhenNotEqual : Prop :=
  ∀ (s : State) (a : Byte) (ra : RegIdx), a.toNat = ra.val →
    ∃ t, exec (.jne a) s = .next t ∧ (s.equal = false → t.pc.toNat = (s.reg ra).toNat) ∧
      (s.equal = true → PcAdvanced 2 s t) ∧ SameRegistersExcept [] s t ∧ SameMemory s t ∧
      t.fl = s.fl ∧ SameRunAndFault s t ∧ t.out = s.out

/-- CALL (44_control_transfer.md R133): the return address PC + 2 at SP - 1, and PC the register's value; CALL R7 jumps to
the decremented SP (decision D10, log entry 10). -/
def Obligations.CallPushesTheReturnAddress : Prop :=
  ∀ (s : State) (a : Byte) (ra : RegIdx), s.mem.wf = true → a.toNat = ra.val → s.sp ≠ 0 → s.pc.toNat + 2 ≤ 255 →
    ∃ t, exec (.call a) s = .next t ∧ t.sp.toNat = s.sp.toNat - 1 ∧
      (t.mem.read (s.sp - 1).toNat).toNat = s.pc.toNat + 2 ∧ SameMemoryExcept (s.sp - 1).toNat s t ∧
      t.pc.toNat = (if ra = 7 then s.sp.toNat - 1 else (s.reg ra).toNat) ∧
      SameRegistersExcept [7] s t ∧ t.fl = s.fl ∧ SameRunAndFault s t ∧ t.out = s.out

/-- RET (44_control_transfer.md R134): PC is the byte at SP, SP up by one. The bound is SP_LIMIT = 255 (decision D8, log
entry 2). -/
def Obligations.RetPopsIntoPc : Prop :=
  ∀ s : State, s.sp.toNat + 1 ≤ 255 →
    ∃ t, exec .ret s = .next t ∧ t.pc.toNat = (s.mem.read s.sp.toNat).toNat ∧ t.sp.toNat = s.sp.toNat + 1 ∧
      SameRegistersExcept [7] s t ∧ SameMemory s t ∧ t.fl = s.fl ∧ SameRunAndFault s t ∧ t.out = s.out

/-- PRN and PRA (45_io_and_halt.md R150, R151): one event with the register's value at the end of OUT. The event list is
decision D12 (log entry 12). -/
def Obligations.PrintsEmitTheRegister : Prop :=
  ∀ (s : State) (a : Byte) (ra : RegIdx), a.toNat = ra.val →
    (∃ t, exec (.prn a) s = .next t ∧ t.out = s.out ++ [.dec (s.reg ra)] ∧ SameRegistersExcept [] s t ∧
      SameMemory s t ∧ t.fl = s.fl ∧ SameRunAndFault s t ∧ PcAdvanced 2 s t) ∧
    (∃ t, exec (.pra a) s = .next t ∧ t.out = s.out ++ [.chr (s.reg ra)] ∧ SameRegistersExcept [] s t ∧
      SameMemory s t ∧ t.fl = s.fl ∧ SameRunAndFault s t ∧ PcAdvanced 2 s t)

/-- HLT (45_io_and_halt.md R152): RUN cleared, PC advanced by one, also from 255 to 256 (decision D4, log entry 5), nothing
else changed. -/
def Obligations.HltClearsRun : Prop :=
  ∀ s : State, ∃ t, exec .hlt s = .next t ∧ t.run = false ∧ t.fault = s.fault ∧ PcAdvanced 1 s t ∧
    SameRegistersExcept [] s t ∧ SameMemory s t ∧ t.fl = s.fl ∧ t.out = s.out

/-! ## Instructions: where they trap -/

/-- Every instruction with an illegal register operand raises InvalidRegister of the first one, a before b, and has no
effect, whatever else would be wrong with it (40_instruction_cycle.md R86, R87; decisions D6 and D11, log entries 7 and
11). -/
def Obligations.IllegalRegisterTrapsFirst : Prop :=
  ∀ (i : Instr) (s : State) (b : Byte), i.registerOperands.find? (fun x => decide (7 < x.toNat)) = some b →
    exec i s = .next (Trapped i (.invalidRegister b) s)

/-- PUSH and CALL with SP = 0 raise StackOverflow(0), CALL also at PC = 254 (decision D6, log entry 7), and no other
instruction raises it, whatever its operands; LDI, ADD, MUL and POP with R7 as destination complete, LDI with every
immediate, ADD and MUL wrapping (60_exceptions.md R165; POP's bound is decision D8, log entry 2, and that POP R7 ends with
the popped byte is decision D10, log entry 10). -/
def Obligations.StackOverflowIsForPushAndCall : Prop :=
  (∀ (s : State) (a : Byte), a.toNat ≤ 7 → s.sp = 0 →
    exec (.push a) s = .next (Trapped (.push a) (.stackOverflow 0) s) ∧
    exec (.call a) s = .next (Trapped (.call a) (.stackOverflow 0) s)) ∧
  (∀ (s : State) (imm : Byte), ∃ t, exec (.ldi 7 imm) s = .next t ∧ t.sp = imm ∧ t.fault = s.fault) ∧
  (∀ (s : State) (b : Byte) (rb : RegIdx), b.toNat = rb.val →
    (∃ t, exec (.add 7 b) s = .next t ∧ t.sp = s.sp + s.reg rb ∧ t.fault = s.fault) ∧
    (∃ t, exec (.mul 7 b) s = .next t ∧ t.sp = s.sp * s.reg rb ∧ t.fault = s.fault)) ∧
  (∀ s : State, s.sp.toNat < 255 →
    ∃ t, exec (.pop 7) s = .next t ∧ t.sp = s.mem.read s.sp.toNat ∧ t.fault = s.fault) ∧
  (∀ (i : Instr) (s t : State) (r : FaultRecord), exec i s = .next t → t.fault = some r → s.fault ≠ some r →
    r.cause.kind = .stackOverflow → (i.mnemonic = .push ∨ i.mnemonic = .call) ∧ s.sp = 0)

/-- A CALL whose return address is not a memory address raises AddressOutOfRange(PC + 2) and pushes nothing; with SP = 0 it
raises StackOverflow instead (44_control_transfer.md R133; decisions D6 and D9, log entries 7 and 9). -/
def Obligations.CallAtTheTopOfMemoryTraps : Prop :=
  ∀ (s : State) (a : Byte), a.toNat ≤ 7 → s.pc.toNat = 254 →
    (s.sp ≠ 0 → exec (.call a) s = .next (Trapped (.call a) (.addressOutOfRange 256) s)) ∧
    (s.sp = 0 → exec (.call a) s = .next (Trapped (.call a) (.stackOverflow 0) s))

/-- The underflow bound, for every SP_LIMIT, the admissible 255 and 244 among them (43_stack.md R123, 60_exceptions.md
R166; decision D8, log entry 2): POP and RET complete exactly while SP is below the bound, SP is then at most the bound,
and at or above it they raise StackUnderflow(SP). The last clause ties it to this hardware, whose bound is 255. -/
def Obligations.UnderflowBoundIsSpLimit : Prop :=
  (∀ (c : Config) (s : State) (a : Byte) (ra : RegIdx), a.toNat = ra.val →
    (s.sp.toNat < c.spLimit.toNat →
      (∃ t, execWith c (.pop a) s = .next t ∧ t.fault = s.fault ∧ (ra ≠ 7 → t.sp.toNat ≤ c.spLimit.toNat)) ∧
      (∃ t, execWith c .ret s = .next t ∧ t.fault = s.fault ∧ t.sp.toNat ≤ c.spLimit.toNat)) ∧
    (c.spLimit.toNat ≤ s.sp.toNat →
      execWith c (.pop a) s = .next (raise (.stackUnderflow s.sp) (some (c.opcodeMap .pop)) s) ∧
      execWith c .ret s = .next (raise (.stackUnderflow s.sp) (some (c.opcodeMap .ret)) s))) ∧
  (∀ (s : State) (a : Byte), a.toNat ≤ 7 → s.sp = 255 →
    exec (.pop a) s = .next (Trapped (.pop a) (.stackUnderflow 255) s) ∧
    exec .ret s = .next (Trapped .ret (.stackUnderflow 255) s))

/-! ## Rules of the whole machine -/

/-- 10_state.md R22: CMP is FL's only writer and every completed CMP leaves exactly one flag set; JEQ and JNE are its only
readers, and they read Equal alone: with another value in FL (for JEQ and JNE one with the same Equal) every instruction
does the same to everything else. -/
def Obligations.FlagsAreWrittenByCmpAndReadByBranches : Prop :=
  (∀ (i : Instr) (s t : State), i.mnemonic ≠ .cmp → exec i s = .next t → t.fl = s.fl) ∧
  (∀ (s t : State) (a b : Byte), exec (.cmp a b) s = .next t → a.toNat ≤ 7 → b.toNat ≤ 7 →
    [t.less, t.greater, t.equal].count true = 1) ∧
  (∀ (i : Instr) (s t : State) (v : Byte),
    ((i.mnemonic = .jeq ∨ i.mnemonic = .jne) → (s.withFl v).equal = s.equal) → exec i s = .next t →
      ∃ u, exec i (s.withFl v) = .next u ∧ u.withFl 0 = t.withFl 0)

/-- Memory is written only by PUSH and CALL and only at SP - 1: whatever a step does to any other byte is nothing
(10_state.md R11, 20_memory.md R41, R42). -/
def Obligations.OnlyPushAndCallWriteMemory : Prop :=
  ∀ (s t : State) (a : Nat), s.mem.wf = true → step s = .next t → t.mem.read a ≠ s.mem.read a →
    a = (s.sp - 1).toNat ∧ s.sp ≠ 0 ∧
      (s.mem.read s.pc.toNat = Config.hw.opcodeMap .push ∨ s.mem.read s.pc.toNat = Config.hw.opcodeMap .call)

/-- OUT is append-only, a step adds at most one event, and only PRN and PRA add one, of their own kind (10_state.md R28;
decision D12, log entry 12). -/
def Obligations.OnlyPrintsExtendTheOutput : Prop :=
  ∀ s t : State, step s = .next t →
    t.out = s.out ∨
    (∃ v, t.out = s.out ++ [.dec v] ∧ s.mem.read s.pc.toNat = Config.hw.opcodeMap .prn) ∨
    (∃ v, t.out = s.out ++ [.chr v] ∧ s.mem.read s.pc.toNat = Config.hw.opcodeMap .pra)

/-- The unit never reads OUT: a run of any length from a state with another output stream does the same to everything else
and emits the same events (10_state.md R28). -/
def Obligations.OutputDoesNotInfluenceRuns : Prop :=
  ∀ (n : Nat) (s t : State) (es : List OutEvent), runSteps n s = .next t →
    ∃ new, t.out = s.out ++ new ∧ runSteps n (s.withOut es) = .next (t.withOut (es ++ new))

/-- The registers an instruction may change are those of the table of 10_state.md R17. -/
def Obligations.RegistersWrittenAreTheTables : Prop :=
  ∀ (i : Instr) (s t : State) (q : RegIdx), exec i s = .next t → q.val ∉ i.writtenRegisters → t.reg q = s.reg q

/-- An instruction reads no register outside the table of 10_state.md R17: changing one changes that register of the result
and nothing else. -/
def Obligations.OtherRegistersDoNotInfluence : Prop :=
  ∀ (i : Instr) (s t : State) (q : RegIdx) (v : Byte), q.val ∉ i.touchedRegisters s.equal → exec i s = .next t →
    exec i (s.setReg q v) = .next (t.setReg q v)

/-- UnsupportedALUOperation: the ALU raises it for every operation but ADD and MULTIPLY, and no step records it
(41_load_and_alu.md R104, 60_exceptions.md R168; decision D18, log entry 17). -/
def Obligations.UnsupportedAluOperationIsNeverRaised : Prop :=
  (∀ (name : String) (x y : Byte), alu (.other name) x y = .error (.unsupportedALUOperation name)) ∧
  (∀ (s t : State) (r : FaultRecord), step s = .next t → t.fault = some r → s.fault ≠ some r →
    r.cause.kind ≠ .unsupportedALUOperation)

/-- PUSH Ra then POP Rc, neither R7, with SP from 1 to SP_LIMIT, under any SP_LIMIT: SP as before, R[c] the value
of R[a], the stored byte at SP - 1, and no other register, cell or flag changed (43_stack.md R124, derived there). -/
def Obligations.PushThenPopBalances : Prop :=
  ∀ (c : Config) (s : State) (a d : Byte) (ra rd : RegIdx), s.mem.wf = true → a.toNat = ra.val →
    d.toNat = rd.val → ra ≠ 7 → rd ≠ 7 → s.sp ≠ 0 → s.sp.toNat ≤ c.spLimit.toNat →
    ∃ u t, execWith c (.push a) s = .next u ∧ execWith c (.pop d) u = .next t ∧ t.sp = s.sp ∧
      t.reg rd = s.reg ra ∧ t.mem.read (s.sp - 1).toNat = s.reg ra ∧ SameRegistersExcept [rd] s t ∧
      SameMemoryExcept (s.sp - 1).toNat s t ∧ t.fl = s.fl ∧ SameRunAndFault s t ∧ t.out = s.out

/-- The stack is last in, first out (43_stack.md R124, derived there): as many pops into distinct registers as there were
pushes, none of them naming R7 (so at most seven), return the pushed values in reverse order and bring SP back. Pops that
raise SP above 244 complete because SP_LIMIT is 255 (decision D8, log entry 2). -/
def Obligations.StackIsLastInFirstOut : Prop :=
  ∀ (s : State) (pushed popped : List RegIdx), s.mem.wf = true → 7 ∉ pushed → 7 ∉ popped → popped.Nodup →
    pushed.length = popped.length → pushed.length ≤ s.sp.toNat →
    ∃ t, execAll (pushed.map (fun r => .push (regByte r)) ++ popped.map (fun r => .pop (regByte r))) s = .next t ∧
      t.sp = s.sp ∧ popped.map t.reg = (pushed.map s.reg).reverse ∧ SameRegistersExcept popped s t ∧
      SameRunAndFault s t

/-- How deep the stack can get (43_stack.md R124, derived there): from SP = n exactly n pushes succeed, at the addresses
n - 1 down to 0, and the next one raises StackOverflow(0); from reset n is 244. -/
def Obligations.StackDepthIsTheStackPointer : Prop :=
  (∀ (s : State) (pushed : List RegIdx), s.mem.wf = true → 7 ∉ pushed → pushed.length ≤ s.sp.toNat →
    ∃ t, execAll (pushed.map fun r => .push (regByte r)) s = .next t ∧ t.fault = s.fault ∧
      t.sp.toNat = s.sp.toNat - pushed.length ∧
      (∀ k (h : k < pushed.length), t.mem.read (s.sp.toNat - 1 - k) = s.reg pushed[k]) ∧
      (pushed.length = s.sp.toNat → ∀ r : RegIdx,
        exec (.push (regByte r)) t = .next (Trapped (.push (regByte r)) (.stackOverflow 0) t))) ∧
  State.reset.sp.toNat = 244

/-- CALL and RET (44_control_transfer.md R133, R134): a RET from any later state whose SP and the byte at it are as CALL left
them returns to the instruction after the CALL, with SP as before the CALL. Where that SP is 245 to 255 the RET completes
because SP_LIMIT is 255 (decision D8, log entry 2); the target of a CALL R7, which is not stated here, is D10. -/
def Obligations.ReturnComesBackAfterTheCall : Prop :=
  ∀ (s : State) (a : Byte), s.mem.wf = true → a.toNat ≤ 7 → s.sp ≠ 0 → s.pc.toNat + 2 ≤ 255 →
    ∃ u, exec (.call a) s = .next u ∧
      ∀ w : State, w.sp = u.sp → w.mem.read u.sp.toNat = u.mem.read u.sp.toNat →
        ∃ t, exec .ret w = .next t ∧ t.pc.toNat = s.pc.toNat + 2 ∧ t.sp = s.sp ∧ SameRegistersExcept [7] w t

/-- Of JEQ Ra and JNE Ra exactly one is taken (44_control_transfer.md R131, R132), stated where PC shows it: in every state
in which the register does not hold PC + 2, exactly one of the two lands on the register's value. Where it holds PC + 2 both
land there, as JeqJumpsWhenEqual and JneJumpsWhenNotEqual say. -/
def Obligations.ExactlyOneBranchIsTaken : Prop :=
  ∀ (s : State) (a : Byte) (ra : RegIdx), a.toNat = ra.val → s.pc + 2 ≠ (s.reg ra).setWidth 9 →
    ∃ t u, exec (.jeq a) s = .next t ∧ exec (.jne a) s = .next u ∧
      (t.pc.toNat = (s.reg ra).toNat ↔ ¬ u.pc.toNat = (s.reg ra).toNat)

/-- A byte stored by PUSH is what every later fetch of its address sees, starting with the very next instruction
(20_memory.md R51, 70_reset_and_hazards.md R202, both derived there). -/
def Obligations.PushedByteIsFetchedNext : Prop :=
  ∀ (s : State) (a : Byte) (ra : RegIdx), s.mem.wf = true → s.run = true → s.Holds (encode (.push a)) →
    a.toNat = ra.val → ra ≠ 7 → s.sp ≠ 0 →
    ∃ t, step s = .next t ∧ ∀ k : Nat, t.pc.toNat + k ≤ 255 →
      t.fetchByte k =
        some (if t.pc.toNat + k = s.sp.toNat - 1 then s.reg ra else s.mem.read (s.pc.toNat + 2 + k))

/-! ## What the host observes -/

/-- The text of an event (45_io_and_halt.md R150, R151; decision D12, log entries 12 and 21): Dec gives two to four
characters, the digits of the value without a leading zero and one line feed; Chr gives the one character with that code
point. -/
def Obligations.OutputTextIsDecimalOrCharacter : Prop :=
  ∀ v : Byte,
    (∃ ds : List Nat, (OutEvent.dec v).render = ds.map (fun d => Char.ofNat (48 + d)) ++ [Char.ofNat 10] ∧
      1 ≤ ds.length ∧ ds.length ≤ 3 ∧ (∀ d ∈ ds, d ≤ 9) ∧ ds.foldl (fun n d => 10 * n + d) 0 = v.toNat ∧
      (ds.head? = some 0 → v = 0 ∧ ds.length = 1)) ∧
    (∃ ch : Char, (OutEvent.chr v).render = [ch] ∧ ch.toNat = v.toNat)

/-- The fault codes and classes of 60_exceptions.md R161 and the code of a state without a record (decision D7, log entry
8). -/
def Obligations.FaultCodesAreTheTables : Prop :=
  (∀ s : State, s.fault = none → s.faultCode = 0) ∧
  (∀ (s : State) (r : FaultRecord), s.fault = some r → s.faultCode =
    match r.cause with
    | .unknownInstruction _ => 1
    | .invalidRegister _ => 2
    | .addressOutOfRange _ => 3
    | .stackOverflow _ => 4
    | .stackUnderflow _ => 5
    | .unsupportedALUOperation _ => 6) ∧
  FaultKind.invalidRegister.sourceClass = .addressOutOfRange ∧ FaultKind.stackOverflow.sourceClass = .addressOutOfRange ∧
  FaultKind.stackUnderflow.sourceClass = .addressOutOfRange ∧
  FaultKind.addressOutOfRange.sourceClass = .addressOutOfRange ∧
  FaultKind.unknownInstruction.sourceClass = .unknownInstruction ∧
  FaultKind.unsupportedALUOperation.sourceClass = .unsupportedALUOperation

/-- The end of a run as the host sees it (10_state.md R33; decision D15, log entry 20): halted exactly when a running state
without a record stops without one, which only HLT does, with exit status zero; faulted when a step takes a fault, with
another status. -/
def Obligations.RunEndsHaltedOrFaulted : Prop :=
  ∀ s t : State, s.Inv Config.hw → step s = .next t →
    s.status = .running ∧
    (t.status = .halted ↔ s.Holds (encode .hlt)) ∧
    (t.status = .faulted ↔ t.fault ≠ none) ∧
    (t.status = .halted → t.exitStatusZero = some true) ∧ (t.status = .faulted → t.exitStatusZero = some false)

/-- Load failures (70_reset_and_hazards.md R195): no argument, no file and a malformed literal on any line each end the
process with a status other than zero, and there is no state to step; a process that does start is running. What a malformed
literal is follows 30_encoding.md R71 with the model's white space (log entry 19); the name of the first failure is the
model's, and which literal is named is open (log entry 25). -/
def Obligations.LoadFailuresEndTheProcess : Prop :=
  launch .noArgument = .error .missingArgument ∧
  launch (.program none) = .error .fileNotFound ∧
  (∀ text line : List Char, line ∈ splitLines text → trim (stripComment line) ≠ [] →
    (8 < (trim (stripComment line)).length ∨ ∃ ch ∈ trim (stripComment line), ch ≠ '0' ∧ ch ≠ '1') →
    ∃ token, launch (.program (some text)) = .error (.malformedLiteral token)) ∧
  (∀ (i : Invocation) (e : LoadError), launch i = .error e →
    processExitStatusZero (launch i) = some false ∧ ∀ s, launch i ≠ .ok s) ∧
  (∀ (i : Invocation) (s : State), launch i = .ok s → s.run = true ∧ processExitStatusZero (launch i) = none)
end

