-- ==== Sys2Proof/Laws/Decode.lean ====
section
/-! SUPPORT. The opcode lookup and the operand readers, said once. -/

namespace Sys2Proof

theorem Mnemonic.mem_all (x : Mnemonic) : x ∈ Mnemonic.all := by cases x <;> decide

/-- A mnemonic found for a byte has that byte. -/
theorem OpcodeMap.of_lookup {m : OpcodeMap} {op : Byte} {x : Mnemonic} (h : m.lookup op = some x) : m x = op := by
  simpa using List.find?_some h

/-- A byte that no mnemonic has is found by none, and conversely. -/
theorem OpcodeMap.lookup_eq_none {m : OpcodeMap} {op : Byte} : m.lookup op = none ↔ ∀ x, m x ≠ op := by
  simp [OpcodeMap.lookup, List.find?_eq_none, Mnemonic.mem_all]

/-- Distinct opcode bytes are looked up to their own mnemonic. -/
theorem OpcodeMap.lookup_self {m : OpcodeMap} (hm : Function.Injective m) (x : Mnemonic) : m.lookup (m x) = some x := by
  cases h : m.lookup (m x) with
  | none => exact absurd rfl (OpcodeMap.lookup_eq_none.mp h x)
  | some y => rw [hm (OpcodeMap.of_lookup h)]

/-- The default opcode bytes are distinct. -/
theorem defaultOpcodeMap_injective : Function.Injective defaultOpcodeMap := by
  intro x y h
  cases x <;> cases y <;> first | rfl | exact absurd h (by decide)

/-- The parameters of this hardware are admissible. -/
theorem Config.hw_admissible : Config.hw.Admissible := ⟨defaultOpcodeMap_injective, .inl rfl⟩

/-- The instruction decoded for a mnemonic has that mnemonic. -/
theorem mnemonic_of_decodeOperands {byteAt : Nat → Option Byte} {op : Byte} {x : Mnemonic} {i : Instr}
    (h : decodeOperands byteAt op x = .ok i) : i.mnemonic = x := by
  cases x <;> simp only [decodeOperands, decodeOne, decodeTwo] at h <;> (repeat' split at h) <;>
    first | (cases h; rfl) | cases h

/-- Decoding looks at no byte beyond the instruction: two sources that agree on offsets 0, 1 and 2 decode alike. -/
theorem decodeFrom_congr {m : OpcodeMap} {f g : Nat → Option Byte} (h : ∀ k < 3, f k = g k) :
    decodeFrom m f = decodeFrom m g := by
  have h0 := h 0 (by omega); have h1 := h 1 (by omega); have h2 := h 2 (by omega)
  have hx (op : Byte) (x : Mnemonic) : decodeOperands f op x = decodeOperands g op x := by
    cases x <;> simp only [decodeOperands, decodeOne, decodeTwo, h1, h2]
  simp only [decodeFrom, h0, hx]

end Sys2Proof
end

