-- ==== Sys2Proof/Laws/State.lean ====
section
/-! SUPPORT. One lemma per field and update of State, so that no proof unfolds a record update, and the reads of a
register after each update. -/

namespace Sys2Proof.Machine

variable (s : State)

@[simp] theorem State.setReg_mem (r : RegIdx) (v : Byte) : (s.setReg r v).mem = s.mem := rfl
@[simp] theorem State.setReg_regs (r : RegIdx) (v : Byte) : (s.setReg r v).regs = s.regs.set r v := rfl
@[simp] theorem State.setReg_pc (r : RegIdx) (v : Byte) : (s.setReg r v).pc = s.pc := rfl
@[simp] theorem State.setReg_fl (r : RegIdx) (v : Byte) : (s.setReg r v).fl = s.fl := rfl
@[simp] theorem State.setReg_run (r : RegIdx) (v : Byte) : (s.setReg r v).run = s.run := rfl
@[simp] theorem State.setReg_fault (r : RegIdx) (v : Byte) : (s.setReg r v).fault = s.fault := rfl
@[simp] theorem State.setReg_out (r : RegIdx) (v : Byte) : (s.setReg r v).out = s.out := rfl

@[simp] theorem State.writeReg_mem (r : RegIdx) (v : Nat) : (s.writeReg r v).mem = s.mem := rfl
@[simp] theorem State.writeReg_regs (r : RegIdx) (v : Nat) : (s.writeReg r v).regs = s.regs.set r (BitVec.ofNat 8 v) := rfl
@[simp] theorem State.writeReg_pc (r : RegIdx) (v : Nat) : (s.writeReg r v).pc = s.pc := rfl
@[simp] theorem State.writeReg_fl (r : RegIdx) (v : Nat) : (s.writeReg r v).fl = s.fl := rfl
@[simp] theorem State.writeReg_run (r : RegIdx) (v : Nat) : (s.writeReg r v).run = s.run := rfl
@[simp] theorem State.writeReg_fault (r : RegIdx) (v : Nat) : (s.writeReg r v).fault = s.fault := rfl
@[simp] theorem State.writeReg_out (r : RegIdx) (v : Nat) : (s.writeReg r v).out = s.out := rfl

@[simp] theorem State.setSp_mem (v : Byte) : (s.setSp v).mem = s.mem := rfl
@[simp] theorem State.setSp_regs (v : Byte) : (s.setSp v).regs = s.regs.set Config.spIndex v := rfl
@[simp] theorem State.setSp_pc (v : Byte) : (s.setSp v).pc = s.pc := rfl
@[simp] theorem State.setSp_fl (v : Byte) : (s.setSp v).fl = s.fl := rfl
@[simp] theorem State.setSp_run (v : Byte) : (s.setSp v).run = s.run := rfl
@[simp] theorem State.setSp_fault (v : Byte) : (s.setSp v).fault = s.fault := rfl
@[simp] theorem State.setSp_out (v : Byte) : (s.setSp v).out = s.out := rfl

@[simp] theorem State.setPc_mem (p : Pc) : (s.setPc p).mem = s.mem := rfl
@[simp] theorem State.setPc_regs (p : Pc) : (s.setPc p).regs = s.regs := rfl
@[simp] theorem State.setPc_pc (p : Pc) : (s.setPc p).pc = p := rfl
@[simp] theorem State.setPc_fl (p : Pc) : (s.setPc p).fl = s.fl := rfl
@[simp] theorem State.setPc_run (p : Pc) : (s.setPc p).run = s.run := rfl
@[simp] theorem State.setPc_fault (p : Pc) : (s.setPc p).fault = s.fault := rfl
@[simp] theorem State.setPc_out (p : Pc) : (s.setPc p).out = s.out := rfl

@[simp] theorem State.jump_mem (b : Byte) : (s.jump b).mem = s.mem := rfl
@[simp] theorem State.jump_regs (b : Byte) : (s.jump b).regs = s.regs := rfl
@[simp] theorem State.jump_pc (b : Byte) : (s.jump b).pc = b.setWidth 9 := rfl
@[simp] theorem State.jump_fl (b : Byte) : (s.jump b).fl = s.fl := rfl
@[simp] theorem State.jump_run (b : Byte) : (s.jump b).run = s.run := rfl
@[simp] theorem State.jump_fault (b : Byte) : (s.jump b).fault = s.fault := rfl
@[simp] theorem State.jump_out (b : Byte) : (s.jump b).out = s.out := rfl

@[simp] theorem State.advance_mem (n : Nat) : (s.advance n).mem = s.mem := rfl
@[simp] theorem State.advance_regs (n : Nat) : (s.advance n).regs = s.regs := rfl
@[simp] theorem State.advance_pc (n : Nat) : (s.advance n).pc = s.pc + BitVec.ofNat 9 n := rfl
@[simp] theorem State.advance_fl (n : Nat) : (s.advance n).fl = s.fl := rfl
@[simp] theorem State.advance_run (n : Nat) : (s.advance n).run = s.run := rfl
@[simp] theorem State.advance_fault (n : Nat) : (s.advance n).fault = s.fault := rfl
@[simp] theorem State.advance_out (n : Nat) : (s.advance n).out = s.out := rfl

@[simp] theorem State.emit_mem (e : OutEvent) : (s.emit e).mem = s.mem := rfl
@[simp] theorem State.emit_regs (e : OutEvent) : (s.emit e).regs = s.regs := rfl
@[simp] theorem State.emit_pc (e : OutEvent) : (s.emit e).pc = s.pc := rfl
@[simp] theorem State.emit_fl (e : OutEvent) : (s.emit e).fl = s.fl := rfl
@[simp] theorem State.emit_run (e : OutEvent) : (s.emit e).run = s.run := rfl
@[simp] theorem State.emit_fault (e : OutEvent) : (s.emit e).fault = s.fault := rfl
@[simp] theorem State.emit_out (e : OutEvent) : (s.emit e).out = s.out ++ [e] := rfl

@[simp] theorem State.stop_mem : (s.stop).mem = s.mem := rfl
@[simp] theorem State.stop_regs : (s.stop).regs = s.regs := rfl
@[simp] theorem State.stop_pc : (s.stop).pc = s.pc := rfl
@[simp] theorem State.stop_fl : (s.stop).fl = s.fl := rfl
@[simp] theorem State.stop_run : (s.stop).run = false := rfl
@[simp] theorem State.stop_fault : (s.stop).fault = s.fault := rfl
@[simp] theorem State.stop_out : (s.stop).out = s.out := rfl

@[simp] theorem State.writeFl_mem (v : Byte) : (s.writeFl v).mem = s.mem := rfl
@[simp] theorem State.writeFl_regs (v : Byte) : (s.writeFl v).regs = s.regs := rfl
@[simp] theorem State.writeFl_pc (v : Byte) : (s.writeFl v).pc = s.pc := rfl
@[simp] theorem State.writeFl_fl (v : Byte) : (s.writeFl v).fl = v &&& flMask := rfl
@[simp] theorem State.writeFl_run (v : Byte) : (s.writeFl v).run = s.run := rfl
@[simp] theorem State.writeFl_fault (v : Byte) : (s.writeFl v).fault = s.fault := rfl
@[simp] theorem State.writeFl_out (v : Byte) : (s.writeFl v).out = s.out := rfl

@[simp] theorem State.storeByte_mem (a : Nat) (v : Byte) : (s.storeByte a v).mem = s.mem.write a v := rfl
@[simp] theorem State.storeByte_regs (a : Nat) (v : Byte) : (s.storeByte a v).regs = s.regs := rfl
@[simp] theorem State.storeByte_pc (a : Nat) (v : Byte) : (s.storeByte a v).pc = s.pc := rfl
@[simp] theorem State.storeByte_fl (a : Nat) (v : Byte) : (s.storeByte a v).fl = s.fl := rfl
@[simp] theorem State.storeByte_run (a : Nat) (v : Byte) : (s.storeByte a v).run = s.run := rfl
@[simp] theorem State.storeByte_fault (a : Nat) (v : Byte) : (s.storeByte a v).fault = s.fault := rfl
@[simp] theorem State.storeByte_out (a : Nat) (v : Byte) : (s.storeByte a v).out = s.out := rfl

@[simp] theorem raise_mem (k : FaultCause) (op : Option Byte) : (raise k op s).mem = s.mem := rfl
@[simp] theorem raise_regs (k : FaultCause) (op : Option Byte) : (raise k op s).regs = s.regs := rfl
@[simp] theorem raise_pc (k : FaultCause) (op : Option Byte) : (raise k op s).pc = s.pc := rfl
@[simp] theorem raise_fl (k : FaultCause) (op : Option Byte) : (raise k op s).fl = s.fl := rfl
@[simp] theorem raise_run (k : FaultCause) (op : Option Byte) : (raise k op s).run = false := rfl
@[simp] theorem raise_fault (k : FaultCause) (op : Option Byte) : (raise k op s).fault = some ⟨k, s.pc, op⟩ := rfl
@[simp] theorem raise_out (k : FaultCause) (op : Option Byte) : (raise k op s).out = s.out := rfl

@[simp] theorem State.setPc_reg (p : Pc) (q : RegIdx) : (s.setPc p).reg q = s.reg q := rfl
@[simp] theorem State.setPc_sp (p : Pc): (s.setPc p).sp = s.sp := rfl
@[simp] theorem State.jump_reg (b : Byte) (q : RegIdx) : (s.jump b).reg q = s.reg q := rfl
@[simp] theorem State.jump_sp (b : Byte): (s.jump b).sp = s.sp := rfl
@[simp] theorem State.advance_reg (n : Nat) (q : RegIdx) : (s.advance n).reg q = s.reg q := rfl
@[simp] theorem State.advance_sp (n : Nat): (s.advance n).sp = s.sp := rfl
@[simp] theorem State.emit_reg (e : OutEvent) (q : RegIdx) : (s.emit e).reg q = s.reg q := rfl
@[simp] theorem State.emit_sp (e : OutEvent): (s.emit e).sp = s.sp := rfl
@[simp] theorem State.stop_reg (q : RegIdx) : (s.stop).reg q = s.reg q := rfl
@[simp] theorem State.stop_sp : (s.stop).sp = s.sp := rfl
@[simp] theorem State.writeFl_reg (v : Byte) (q : RegIdx) : (s.writeFl v).reg q = s.reg q := rfl
@[simp] theorem State.writeFl_sp (v : Byte): (s.writeFl v).sp = s.sp := rfl
@[simp] theorem State.storeByte_reg (a : Nat) (v : Byte) (q : RegIdx) : (s.storeByte a v).reg q = s.reg q := rfl
@[simp] theorem State.storeByte_sp (a : Nat) (v : Byte): (s.storeByte a v).sp = s.sp := rfl
@[simp] theorem raise_reg (k : FaultCause) (op : Option Byte) (q : RegIdx) : (raise k op s).reg q = s.reg q := rfl
@[simp] theorem raise_sp (k : FaultCause) (op : Option Byte) : (raise k op s).sp = s.sp := rfl

/-- A register read after a register write. -/
@[simp] theorem State.setReg_reg (r q : RegIdx) (v : Byte) :
    (s.setReg r v).reg q = if q = r then v else s.reg q := by
  simp [State.setReg, State.reg, Vector.getElem_set, Fin.ext_iff, eq_comm]

/-- The register write stores the value modulo 256. -/
@[simp] theorem State.writeReg_reg (r q : RegIdx) (v : Nat) :
    (s.writeReg r v).reg q = if q = r then BitVec.ofNat 8 v else s.reg q := s.setReg_reg r q _

@[simp] theorem State.setSp_reg (q : RegIdx) (v : Byte) :
    (s.setSp v).reg q = if q = Config.spIndex then v else s.reg q := s.setReg_reg _ q v

@[simp] theorem State.setSp_sp (v : Byte) : (s.setSp v).sp = v := by simp [State.sp]

/-- Two states with equal fields, registers read one by one, are equal. -/
theorem State.ext_fields {s t : State} (hm : s.mem = t.mem) (hr : ∀ q, s.reg q = t.reg q) (hp : s.pc = t.pc)
    (hf : s.fl = t.fl) (hrun : s.run = t.run) (hx : s.fault = t.fault) (ho : s.out = t.out) : s = t := by
  cases s; cases t
  simp only [State.mk.injEq]
  refine ⟨hm, ?_, hp, hf, hrun, hx, ho⟩
  ext i hi j hj
  exact congrArg (fun b : Byte => b.getLsbD _) (hr ⟨i, hi⟩)

end Sys2Proof.Machine
end

