-- ==== Sys2Proof/Laws/Ops.lean ====
section
/-! SUPPORT. What each shared operation can do, said once: its result where it succeeds and the fault where it does not. -/

namespace Sys2Proof.Machine

@[simp] theorem except_ok_bind {ε α β : Type} (a : α) (f : α → Except ε β) : (Except.ok a >>= f) = f a := rfl

@[simp] theorem except_error_bind {ε α β : Type} (e : ε) (f : α → Except ε β) :
    ((Except.error e : Except ε α) >>= f) = .error e := rfl

/-- A sequence of checked operations succeeds when its first one does and the rest does. -/
theorem except_bind_eq_ok {ε α β : Type} {x : Except ε α} {f : α → Except ε β} {b : β} :
    (x >>= f) = .ok b ↔ ∃ a, x = .ok a ∧ f a = .ok b := by
  cases x <;> simp

/-- It fails where its first failing operation fails. -/
theorem except_bind_eq_error {ε α β : Type} {x : Except ε α} {f : α → Except ε β} {e : ε} :
    (x >>= f) = .error e ↔ x = .error e ∨ ∃ a, x = .ok a ∧ f a = .error e := by
  cases x <;> simp

theorem regOperand_of_le {b : Byte} (h : b.toNat ≤ 7) : regOperand b = .ok ⟨b.toNat, by omega⟩ := by
  simp [regOperand, Nat.lt_succ_of_le h]

theorem regOperand_of_gt {b : Byte} (h : 7 < b.toNat) : regOperand b = .error (.invalidRegister b) := by
  simp [regOperand, Nat.not_lt.mpr h]

/-- A register operand is accepted exactly when its byte is the register's index. -/
theorem regOperand_ok_iff {b : Byte} {r : RegIdx} : regOperand b = .ok r ↔ b.toNat = r.val := by
  unfold regOperand
  by_cases h : b.toNat < 8
  · simp [h, Fin.ext_iff]
  · simp only [h, dite_false, reduceCtorEq, false_iff]
    have := r.isLt
    omega

theorem regOperand_error_iff {b : Byte} {k : FaultCause} :
    regOperand b = .error k ↔ 7 < b.toNat ∧ k = .invalidRegister b := by
  unfold regOperand
  by_cases h : b.toNat < 8
  · simp only [h, dite_true, reduceCtorEq, false_iff]; omega
  · simp only [h, dite_false, Except.error.injEq]
    exact ⟨fun e => ⟨by omega, e.symm⟩, fun e => e.2.symm⟩

theorem memRead_byte (s : State) (b : Byte) : memRead s b.toNat = .ok (s.mem.read b.toNat) := by
  have := b.isLt
  simp [memRead]; omega

theorem memWrite_byte (s : State) (b v : Byte) : memWrite s b.toNat v = .ok (s.storeByte b.toNat v) := by
  have := b.isLt
  simp [memWrite]; omega

theorem decrementSp_of_ne {s : State} (h : s.sp ≠ 0#8) : decrementSp s = .ok (s.setSp (s.sp - 1)) := by
  simp [decrementSp, h]

theorem decrementSp_of_eq {s : State} (h : s.sp = 0#8) : decrementSp s = .error (.stackOverflow s.sp) := by
  simp [decrementSp, h]

theorem popByte_of_le {limit : Byte} {s : State} (h : s.sp.toNat + 1 ≤ limit.toNat) :
    popByte limit s = .ok (s.mem.read s.sp.toNat, s.setSp (s.sp + 1)) := by
  simp [popByte, Nat.not_lt.mpr h, memRead_byte]

theorem popByte_of_gt {limit : Byte} {s : State} (h : limit.toNat < s.sp.toNat + 1) :
    popByte limit s = .error (.stackUnderflow s.sp) := by
  simp [popByte, h]

theorem decrementSp_ok_iff {s t : State} : decrementSp s = .ok t ↔ s.sp ≠ 0#8 ∧ t = s.setSp (s.sp - 1) := by
  by_cases h : s.sp = 0#8 <;> simp [decrementSp, h, eq_comm]

theorem decrementSp_error_iff {s : State} {k : FaultCause} :
    decrementSp s = .error k ↔ s.sp = 0#8 ∧ k = .stackOverflow s.sp := by
  by_cases h : s.sp = 0#8 <;> simp [decrementSp, h, eq_comm]

theorem popByte_ok_iff {limit : Byte} {s : State} {p : Byte × State} :
    popByte limit s = .ok p ↔
      s.sp.toNat + 1 ≤ limit.toNat ∧ p = (s.mem.read s.sp.toNat, s.setSp (s.sp + 1)) := by
  by_cases h : limit.toNat < s.sp.toNat + 1
  · simp only [popByte_of_gt h, reduceCtorEq, false_iff]; omega
  · rw [popByte_of_le (Nat.not_lt.mp h)]
    simp [Nat.not_lt.mp h, eq_comm]

theorem popByte_error_iff {limit : Byte} {s : State} {k : FaultCause} :
    popByte limit s = .error k ↔ limit.toNat < s.sp.toNat + 1 ∧ k = .stackUnderflow s.sp := by
  by_cases h : limit.toNat < s.sp.toNat + 1
  · simp [popByte_of_gt h, h, eq_comm]
  · simp [popByte_of_le (Nat.not_lt.mp h), h]

theorem returnAddress_of_le {s : State} (h : s.pc.toNat + 2 ≤ 255) :
    returnAddress s = .ok (BitVec.ofNat 8 (s.pc.toNat + 2)) := by
  simp [returnAddress, h]

theorem returnAddress_of_gt {s : State} (h : 255 < s.pc.toNat + 2) :
    returnAddress s = .error (.addressOutOfRange (s.pc.toNat + 2)) := by
  simp [returnAddress, Nat.not_le.mpr h]

theorem returnAddress_ok_iff {s : State} {b : Byte} :
    returnAddress s = .ok b ↔ s.pc.toNat + 2 ≤ 255 ∧ b = BitVec.ofNat 8 (s.pc.toNat + 2) := by
  by_cases h : s.pc.toNat + 2 ≤ 255
  · simp [returnAddress, h, eq_comm]
  · simp [returnAddress, h]

theorem returnAddress_error_iff {s : State} {k : FaultCause} :
    returnAddress s = .error k ↔ 255 < s.pc.toNat + 2 ∧ k = .addressOutOfRange (s.pc.toNat + 2) := by
  by_cases h : s.pc.toNat + 2 ≤ 255
  · simp [returnAddress, h]
  · simp [returnAddress, h, eq_comm]; omega

@[simp] theorem complete_ok (c : Config) (m : Mnemonic) (s t : State) : complete c m s (.ok t) = .next t := rfl

@[simp] theorem complete_error (c : Config) (m : Mnemonic) (s : State) (k : FaultCause) :
    complete c m s (.error k) = .next (raise k (some (c.opcodeMap m)) s) := rfl

/-- An instruction answers a next state in two ways only: its handler's, or the fault taken from the state before it. -/
theorem complete_eq_next {c : Config} {m : Mnemonic} {s t : State} {r : Except FaultCause State}
    (h : complete c m s r = .next t) :
    r = .ok t ∨ ∃ k, r = .error k ∧ t = raise k (some (c.opcodeMap m)) s := by
  cases r with
  | ok u => simp only [complete_ok, Host.Outcome.next.injEq] at h; exact .inl (by rw [h])
  | error k => simp only [complete_error, Host.Outcome.next.injEq] at h; exact .inr ⟨k, rfl, h.symm⟩

theorem fetchByte_of_le {s : State} {k : Nat} (h : s.pc.toNat + k ≤ 255) :
    s.fetchByte k = some (s.mem.read (s.pc.toNat + k)) := by
  simp [State.fetchByte, memRead, h]

theorem fetchByte_of_gt {s : State} {k : Nat} (h : 255 < s.pc.toNat + k) : s.fetchByte k = none := by
  simp [State.fetchByte, memRead, Nat.not_le.mpr h]

/-- Reading FL after writing it gives the bits that exist. -/
@[simp] theorem State.writeFl_readFl (s : State) (v : Byte) : (s.writeFl v).readFl = v &&& flMask := by
  simp [State.readFl, BitVec.and_assoc]

end Sys2Proof.Machine
end

