-- ==== Sys2Proof/Laws/Parametric.lean ====
section
/-! SUPPORT. `exec` and `step` are the machine over any Config, at Config.hw; and what a step can do, said once. -/

namespace Sys2Proof.Machine

theorem exec_eq_execWith (i : Instr) (s : State) : exec i s = execWith Config.hw i s := by cases i <;> rfl

theorem step_eq_stepWith (s : State) : step s = stepWith Config.hw s := by
  unfold step stepWith
  cases s.run
  · rfl
  · cases fetch Config.hw s with
    | ok i => exact exec_eq_execWith i s
    | error f => rfl

/-- An instruction's outcome: its handler's state, or the fault of its handler taken. -/
theorem execWith_eq_next {c : Config} {i : Instr} {s t : State} (h : execWith c i s = .next t) :
    handler c.spLimit i s = .ok t ∨
      ∃ k, handler c.spLimit i s = .error k ∧ t = raise k (some (c.opcodeMap i.mnemonic)) s :=
  complete_eq_next h

/-- Everything a step that answers a next state can have done. -/
theorem stepWith_eq_next {c : Config} {s t : State} (h : stepWith c s = .next t) :
    s.run = true ∧
      ((∃ i, decodeFrom c.opcodeMap s.fetchByte = .ok i ∧ execWith c i s = .next t) ∨
       (∃ e, decodeFrom c.opcodeMap s.fetchByte = .error e ∧
          t = raise (fetchFault s.pc e).1 (fetchFault s.pc e).2 s)) := by
  unfold stepWith fetch at h
  cases hr : s.run with
  | false => simp [hr] at h
  | true =>
    refine ⟨rfl, ?_⟩
    cases hd : decodeFrom c.opcodeMap s.fetchByte with
    | ok i => exact .inl ⟨i, rfl, by simpa [hr, hd] using h⟩
    | error e => exact .inr ⟨e, rfl, by simpa [hr, hd, eq_comm] using h⟩

end Sys2Proof.Machine
end

