-- ==== Sys2Proof/Laws/Handlers.lean ====
section
/-! SUPPORT. One lemma per handler: exactly when it completes and the state it completes with. Later proofs cite these and
do not unfold a handler. -/

namespace Sys2Proof.Machine

variable {s t : State} {a b imm limit : Byte}

theorem hltHandler_ok_iff : hltHandler s = .ok t ↔ t = s.stop.advance 1 := by
  simp [hltHandler, eq_comm]

theorem ldiHandler_ok_iff :
    ldiHandler a imm s = .ok t ↔ ∃ ra : RegIdx, a.toNat = ra.val ∧ t = (s.writeReg ra imm.toNat).advance 3 := by
  simp only [ldiHandler, except_bind_eq_ok, regOperand_ok_iff, immOperand, Except.ok.injEq, eq_comm (a := t)]

theorem aluHandler_ok_iff {op : AluOp} :
    aluHandler op a b s = .ok t ↔ ∃ ra rb : RegIdx, a.toNat = ra.val ∧ b.toNat = rb.val ∧
      ∃ v, alu op (s.reg ra) (s.reg rb) = .ok v ∧ t = (s.writeReg ra v).advance 3 := by
  simp only [aluHandler, except_bind_eq_ok, regOperand_ok_iff, Except.ok.injEq]
  constructor
  · rintro ⟨ra, ha, rb, hb, v, hv, rfl⟩; exact ⟨ra, rb, ha, hb, v, hv, rfl⟩
  · rintro ⟨ra, rb, ha, hb, v, hv, rfl⟩; exact ⟨ra, ha, rb, hb, v, hv, rfl⟩

theorem cmpHandler_ok_iff :
    cmpHandler a b s = .ok t ↔ ∃ ra rb : RegIdx, a.toNat = ra.val ∧ b.toNat = rb.val ∧
      t = (s.writeFl (compareFlags (s.reg ra) (s.reg rb))).advance 3 := by
  simp only [cmpHandler, except_bind_eq_ok, regOperand_ok_iff, Except.ok.injEq]
  constructor
  · rintro ⟨ra, ha, rb, hb, rfl⟩; exact ⟨ra, rb, ha, hb, rfl⟩
  · rintro ⟨ra, rb, ha, hb, rfl⟩; exact ⟨ra, ha, rb, hb, rfl⟩

theorem pushHandler_ok_iff :
    pushHandler a s = .ok t ↔ ∃ ra : RegIdx, a.toNat = ra.val ∧ s.sp ≠ 0#8 ∧
      t = ((s.setSp (s.sp - 1)).storeByte (s.sp - 1).toNat ((s.setSp (s.sp - 1)).reg ra)).advance 2 := by
  simp only [pushHandler, except_bind_eq_ok, regOperand_ok_iff, decrementSp_ok_iff]
  constructor
  · rintro ⟨ra, ha, _, ⟨hs, rfl⟩, s₂, h₂, h₃⟩
    rw [memWrite_byte, State.setSp_sp, Except.ok.injEq] at h₂
    rw [Except.ok.injEq] at h₃
    exact ⟨ra, ha, hs, by rw [← h₃, ← h₂]⟩
  · rintro ⟨ra, ha, hs, rfl⟩
    exact ⟨ra, ha, _, ⟨hs, rfl⟩, _, memWrite_byte _ _ _, by rw [State.setSp_sp]⟩

theorem popHandler_ok_iff :
    popHandler limit a s = .ok t ↔ ∃ ra : RegIdx, a.toNat = ra.val ∧ s.sp.toNat + 1 ≤ limit.toNat ∧
      t = ((s.setSp (s.sp + 1)).writeReg ra (s.mem.read s.sp.toNat).toNat).advance 2 := by
  simp only [popHandler, except_bind_eq_ok, regOperand_ok_iff, popByte_ok_iff]
  constructor
  · rintro ⟨ra, ha, _, ⟨hs, rfl⟩, h⟩
    exact ⟨ra, ha, hs, (Except.ok.inj h).symm⟩
  · rintro ⟨ra, ha, hs, rfl⟩
    exact ⟨ra, ha, _, ⟨hs, rfl⟩, rfl⟩

theorem jmpHandler_ok_iff :
    jmpHandler a s = .ok t ↔ ∃ ra : RegIdx, a.toNat = ra.val ∧ t = s.jump (s.reg ra) := by
  simp only [jmpHandler, except_bind_eq_ok, regOperand_ok_iff, Except.ok.injEq, eq_comm (a := t)]

theorem branchHandler_ok_iff {taken : Bool} :
    branchHandler taken a s = .ok t ↔ ∃ ra : RegIdx, a.toNat = ra.val ∧
      t = if taken = true then s.jump (s.reg ra) else s.advance 2 := by
  cases taken <;>
    simp only [branchHandler, except_bind_eq_ok, regOperand_ok_iff, Except.ok.injEq, eq_comm (a := t), if_true, if_false,
      Bool.false_eq_true]

theorem callHandler_ok_iff :
    callHandler a s = .ok t ↔ ∃ ra : RegIdx, a.toNat = ra.val ∧ s.sp ≠ 0#8 ∧ s.pc.toNat + 2 ≤ 255 ∧
      t = ((s.setSp (s.sp - 1)).storeByte (s.sp - 1).toNat (BitVec.ofNat 8 (s.pc.toNat + 2))).jump
        ((s.setSp (s.sp - 1)).reg ra) := by
  simp only [callHandler, except_bind_eq_ok, regOperand_ok_iff, decrementSp_ok_iff, returnAddress_ok_iff]
  constructor
  · rintro ⟨ra, ha, _, ⟨hs, rfl⟩, _, ⟨hp, rfl⟩, s₂, h₂, h₃⟩
    rw [memWrite_byte, State.setSp_sp, Except.ok.injEq] at h₂
    subst h₂
    exact ⟨ra, ha, hs, hp, (Except.ok.inj h₃).symm⟩
  · rintro ⟨ra, ha, hs, hp, rfl⟩
    exact ⟨ra, ha, _, ⟨hs, rfl⟩, _, ⟨hp, rfl⟩, _, memWrite_byte _ _ _, by rw [State.setSp_sp]; rfl⟩

theorem retHandler_ok_iff :
    retHandler limit s = .ok t ↔ s.sp.toNat + 1 ≤ limit.toNat ∧
      t = (s.setSp (s.sp + 1)).jump (s.mem.read s.sp.toNat) := by
  simp only [retHandler, except_bind_eq_ok, popByte_ok_iff]
  constructor
  · rintro ⟨_, ⟨hs, rfl⟩, h⟩; exact ⟨hs, (Except.ok.inj h).symm⟩
  · rintro ⟨hs, rfl⟩; exact ⟨_, ⟨hs, rfl⟩, rfl⟩

theorem printHandler_ok_iff {event : Byte → OutEvent} :
    printHandler event a s = .ok t ↔ ∃ ra : RegIdx, a.toNat = ra.val ∧
      t = (s.emit (event (s.reg ra))).advance 2 := by
  simp only [printHandler, except_bind_eq_ok, regOperand_ok_iff, Except.ok.injEq, eq_comm (a := t)]

/-- A write at a byte's address never faults. -/
theorem memWrite_ne_error (s : State) (b v : Byte) (k : FaultCause) : memWrite s b.toNat v ≠ .error k := by
  rw [memWrite_byte]; simp

/-- Exactly when a handler raises, and what: its first illegal register operand, then its stack and address checks
(40_instruction_cycle.md R87). Nothing but SP and PC is looked at. -/
theorem handler_error_iff {limit : Byte} {i : Instr} {s : State} {k : FaultCause} :
    handler limit i s = .error k ↔
      (∃ b, i.registerOperands.find? (fun x => decide (7 < x.toNat)) = some b ∧ k = .invalidRegister b) ∨
      (i.registerOperands.find? (fun x => decide (7 < x.toNat)) = none ∧
        (((i.mnemonic = .push ∨ i.mnemonic = .call) ∧ s.sp = 0#8 ∧ k = .stackOverflow s.sp) ∨
         (i.mnemonic = .call ∧ s.sp ≠ 0#8 ∧ 255 < s.pc.toNat + 2 ∧ k = .addressOutOfRange (s.pc.toNat + 2)) ∨
         ((i.mnemonic = .pop ∨ i.mnemonic = .ret) ∧ limit.toNat < s.sp.toNat + 1 ∧ k = .stackUnderflow s.sp))) := by
  have one (a : Byte) (f : RegIdx → Except FaultCause State) :
      (regOperand a >>= f) = .error k ↔
        (7 < a.toNat ∧ k = .invalidRegister a) ∨ ∃ h : a.toNat ≤ 7, f ⟨a.toNat, by omega⟩ = .error k := by
    by_cases h : a.toNat ≤ 7
    · simp [regOperand_of_le h, h, Nat.not_lt.mpr h]
    · simp [regOperand_of_gt (Nat.lt_of_not_le h), h, Nat.lt_of_not_le h, eq_comm]
  cases i with
  | hlt => simp [handler, hltHandler, Instr.registerOperands, Instr.mnemonic]
  | ret =>
    simp only [handler, retHandler, except_bind_eq_error, popByte_error_iff, reduceCtorEq, and_false, exists_false]
    simp [Instr.registerOperands, Instr.mnemonic]
  | pop a =>
    simp only [handler, popHandler, one, except_bind_eq_error, popByte_error_iff, reduceCtorEq, and_false, exists_false]
    by_cases h : 7 < a.toNat <;> simp [Instr.registerOperands, Instr.mnemonic, h, Nat.not_le.mpr, Nat.not_lt.mp, eq_comm]
  | push a =>
    simp only [handler, pushHandler, one, except_bind_eq_error, decrementSp_error_iff, memWrite_ne_error, reduceCtorEq,
      and_false, exists_false, or_false]
    by_cases h : 7 < a.toNat <;> simp [Instr.registerOperands, Instr.mnemonic, h, Nat.not_le.mpr, Nat.not_lt.mp, eq_comm]
  | call a =>
    simp only [handler, callHandler, one, except_bind_eq_error, decrementSp_error_iff, decrementSp_ok_iff,
      returnAddress_error_iff, memWrite_ne_error, reduceCtorEq, and_false, exists_false, or_false]
    by_cases h : 7 < a.toNat <;>
      simp [Instr.registerOperands, Instr.mnemonic, h, Nat.not_le.mpr, Nat.not_lt.mp, eq_comm]
  | jeq a | jne a =>
    have ok (c : Prop) [Decidable c] (t u : State) : ((if c then Except.ok t else .ok u) = .error k) ↔ False := by
      split <;> simp
    simp only [handler, branchHandler, one, ok]
    by_cases h : 7 < a.toNat <;> simp [Instr.registerOperands, Instr.mnemonic, h, eq_comm]
  | prn a | pra a | jmp a | ldi a _ =>
    simp only [handler, printHandler, jmpHandler, ldiHandler, one, reduceCtorEq]
    by_cases h : 7 < a.toNat <;> simp [Instr.registerOperands, Instr.mnemonic, h, eq_comm]
  | add a b | mul a b | cmp a b =>
    simp only [handler, aluHandler, cmpHandler, alu, one, except_ok_bind, reduceCtorEq]
    by_cases h : 7 < a.toNat <;> by_cases h' : 7 < b.toNat <;>
      simp [Instr.registerOperands, Instr.mnemonic, h, h', Nat.not_le.mpr, Nat.not_lt.mp, eq_comm]

end Sys2Proof.Machine
end

