-- ==== Sys2Proof/Laws/Frame.lean ====
section
/-! SUPPORT. What a completed instruction and a completed or failed decode can have done, over all instructions: the case
splits over the constructors are made here once. -/

namespace Sys2Proof.Machine

/-- What a completed handler leaves: FAULT; RUN unless HLT; FL unless CMP; registers, memory and OUT outside the few that
write them; and where PC goes. -/
theorem handler_ok_frame {limit : Byte} {i : Instr} {s t : State} (h : handler limit i s = .ok t) :
    t.fault = s.fault ∧ (t.run = s.run ∨ i = .hlt) ∧ (i.mnemonic ≠ .cmp → t.fl = s.fl) ∧
    (∀ q : RegIdx, q.val ∉ i.writtenRegisters → t.reg q = s.reg q) ∧
    (t.mem = s.mem ∨ ((i.mnemonic = .push ∨ i.mnemonic = .call) ∧ s.sp ≠ 0#8 ∧
      ∃ v, t.mem = s.mem.write (s.sp - 1).toNat v)) ∧
    (t.out = s.out ∨ (∃ v, t.out = s.out ++ [.dec v] ∧ i.mnemonic = .prn) ∨
      (∃ v, t.out = s.out ++ [.chr v] ∧ i.mnemonic = .pra)) ∧
    (t.pc = s.pc + BitVec.ofNat 9 i.length ∨
      (t.pc.toNat ≤ 255 ∧ i.mnemonic ∈ [Mnemonic.jmp, .jeq, .jne, .call, .ret])) := by
  have sw' (b : Byte) : (b.setWidth 9).toNat ≤ 255 := by
    have := b.isLt
    rw [BitVec.toNat_setWidth]; omega
  have nv : ∀ {q r : RegIdx} {n : Nat}, ¬ q.val = n → n = r.val → q ≠ r := fun h1 h2 h3 => h1 (h3 ▸ h2.symm)
  cases i <;> simp only [handler] at h
  case hlt => rw [hltHandler_ok_iff] at h; subst h; simp [Instr.length, Instr.mnemonic, Mnemonic.opcount]
  case ret =>
    obtain ⟨h, rfl⟩ := retHandler_ok_iff.1 h
    refine ⟨rfl, .inl rfl, fun _ => rfl, ?_, .inl rfl, .inl rfl, .inr ⟨sw' _, by simp [Instr.mnemonic]⟩⟩
    intro q hq; simp [Instr.writtenRegisters] at hq
    simp [nv (r := Config.spIndex) hq rfl]
  case push a =>
    obtain ⟨ra, ha, hs, rfl⟩ := pushHandler_ok_iff.1 h
    refine ⟨rfl, .inl rfl, fun _ => rfl, ?_, .inr ⟨.inl rfl, hs, _, rfl⟩, .inl rfl, .inl rfl⟩
    intro q hq; simp [Instr.writtenRegisters] at hq
    simp [nv (r := Config.spIndex) hq rfl]
  case pop a =>
    obtain ⟨ra, ha, hs, rfl⟩ := popHandler_ok_iff.1 h
    refine ⟨rfl, .inl rfl, fun _ => rfl, ?_, .inl rfl, .inl rfl, .inl rfl⟩
    intro q hq; simp [Instr.writtenRegisters] at hq
    simp [nv (r := Config.spIndex) hq.1 rfl, nv hq.2 ha]
  case prn a =>
    obtain ⟨ra, ha, rfl⟩ := printHandler_ok_iff.1 h
    exact ⟨rfl, .inl rfl, fun _ => rfl, fun _ _ => rfl, .inl rfl, .inr (.inl ⟨_, rfl, rfl⟩), .inl rfl⟩
  case pra a =>
    obtain ⟨ra, ha, rfl⟩ := printHandler_ok_iff.1 h
    exact ⟨rfl, .inl rfl, fun _ => rfl, fun _ _ => rfl, .inl rfl, .inr (.inr ⟨_, rfl, rfl⟩), .inl rfl⟩
  case call a =>
    obtain ⟨ra, ha, hs, hp, rfl⟩ := callHandler_ok_iff.1 h
    refine ⟨rfl, .inl rfl, fun _ => rfl, ?_, .inr ⟨.inr rfl, hs, _, rfl⟩, .inl rfl, .inr ⟨sw' _, by simp [Instr.mnemonic]⟩⟩
    intro q hq; simp [Instr.writtenRegisters] at hq
    simp [nv (r := Config.spIndex) hq rfl]
  case jmp a =>
    obtain ⟨ra, ha, rfl⟩ := jmpHandler_ok_iff.1 h
    exact ⟨rfl, .inl rfl, fun _ => rfl, fun _ _ => rfl, .inl rfl, .inl rfl, .inr ⟨sw' _, by simp [Instr.mnemonic]⟩⟩
  case jeq a =>
    obtain ⟨ra, ha, rfl⟩ := branchHandler_ok_iff.1 h
    split
    · exact ⟨rfl, .inl rfl, fun _ => rfl, fun _ _ => rfl, .inl rfl, .inl rfl, .inr ⟨sw' _, by simp [Instr.mnemonic]⟩⟩
    · exact ⟨rfl, .inl rfl, fun _ => rfl, fun _ _ => rfl, .inl rfl, .inl rfl, .inl rfl⟩
  case jne a =>
    obtain ⟨ra, ha, rfl⟩ := branchHandler_ok_iff.1 h
    split
    · exact ⟨rfl, .inl rfl, fun _ => rfl, fun _ _ => rfl, .inl rfl, .inl rfl, .inr ⟨sw' _, by simp [Instr.mnemonic]⟩⟩
    · exact ⟨rfl, .inl rfl, fun _ => rfl, fun _ _ => rfl, .inl rfl, .inl rfl, .inl rfl⟩
  case ldi a b =>
    obtain ⟨ra, ha, rfl⟩ := ldiHandler_ok_iff.1 h
    refine ⟨rfl, .inl rfl, fun _ => rfl, ?_, .inl rfl, .inl rfl, .inl rfl⟩
    intro q hq; simp [Instr.writtenRegisters] at hq
    simp [nv hq ha]
  case add a b =>
    obtain ⟨ra, rb, ha, hb, v, hv, rfl⟩ := aluHandler_ok_iff.1 h
    refine ⟨rfl, .inl rfl, fun _ => rfl, ?_, .inl rfl, .inl rfl, .inl rfl⟩
    intro q hq; simp [Instr.writtenRegisters] at hq
    simp [nv hq ha]
  case mul a b =>
    obtain ⟨ra, rb, ha, hb, v, hv, rfl⟩ := aluHandler_ok_iff.1 h
    refine ⟨rfl, .inl rfl, fun _ => rfl, ?_, .inl rfl, .inl rfl, .inl rfl⟩
    intro q hq; simp [Instr.writtenRegisters] at hq
    simp [nv hq ha]
  case cmp a b =>
    obtain ⟨ra, rb, ha, hb, rfl⟩ := cmpHandler_ok_iff.1 h
    exact ⟨rfl, .inl rfl, fun h => absurd rfl h, fun _ _ => rfl, .inl rfl, .inl rfl, .inl rfl⟩

/-- An instruction decoded at PC: its opcode byte stands there, all its bytes are below 256, and they are its encoding. -/
theorem decodeFrom_ok {m : OpcodeMap} {s : State} {i : Instr} (h : decodeFrom m s.fetchByte = .ok i) :
    s.mem.read s.pc.toNat = m i.mnemonic ∧ s.pc.toNat + i.mnemonic.opcount ≤ 255 ∧ s.Holds (encodeWith m i) := by
  unfold decodeFrom at h
  by_cases hp : s.pc.toNat + 0 ≤ 255
  swap; · rw [fetchByte_of_gt (by omega)] at h; simp at h
  rw [fetchByte_of_le hp] at h
  simp only [Nat.add_zero] at h hp
  cases hl : m.lookup (s.mem.read s.pc.toNat) with
  | none => simp [hl] at h
  | some x =>
    simp only [hl] at h
    have hm := mnemonic_of_decodeOperands h
    have ho := OpcodeMap.of_lookup hl
    subst hm
    refine ⟨ho.symm, ?_⟩
    have key : i.mnemonic.opcount = 0 ∨ (i.mnemonic.opcount = 1 ∧ s.pc.toNat + 1 ≤ 255) ∨
        (i.mnemonic.opcount = 2 ∧ s.pc.toNat + 2 ≤ 255) := by
      by_cases h1 : s.pc.toNat + 1 ≤ 255
      · by_cases h2 : s.pc.toNat + 2 ≤ 255
        · cases i <;> simp [Instr.mnemonic, Mnemonic.opcount, h1, h2]
        · have e2 : s.fetchByte 2 = none := fetchByte_of_gt (by omega)
          have e1 := fetchByte_of_le h1
          cases i <;> simp [Instr.mnemonic, Mnemonic.opcount, h1, h2, decodeOperands, decodeOne, decodeTwo, e1, e2] at h ⊢
      · have e1 : s.fetchByte 1 = none := fetchByte_of_gt (by omega)
        cases i <;> simp [Instr.mnemonic, Mnemonic.opcount, h1, decodeOperands, decodeOne, decodeTwo, e1] at h ⊢
    refine ⟨by omega, ?_⟩
    intro k hk
    have hk' : k < 1 + i.mnemonic.opcount := by cases i <;> exact hk
    refine ⟨by omega, ?_⟩
    have h1 := fun h1 => fetchByte_of_le (s := s) (k := 1) h1
    have h2 := fun h1 => fetchByte_of_le (s := s) (k := 2) h1
    match k with
    | 0 => simp only [Nat.add_zero]; rw [← ho]; cases i <;> rfl
    | 1 =>
      have : s.pc.toNat + 1 ≤ 255 := by omega
      have h1 := h1 this
      by_cases hh : s.pc.toNat + 2 ≤ 255
      · have h2 := h2 hh
        cases i <;> simp [Instr.mnemonic, decodeOperands, decodeOne, decodeTwo, h1, h2, encodeWith] at h hk ⊢ <;> simp [h]
      · have e2 : s.fetchByte 2 = none := fetchByte_of_gt (by omega)
        cases i <;> simp [Instr.mnemonic, decodeOperands, decodeOne, decodeTwo, h1, e2, encodeWith] at h hk ⊢ <;> simp [h]
    | 2 =>
      have hc : i.mnemonic.opcount = 2 := by omega
      have h1 := h1 (by omega)
      have h2 := h2 (by omega)
      cases i <;>
        simp [Instr.mnemonic, Mnemonic.opcount, decodeOperands, decodeOne, decodeTwo, h1, h2, encodeWith] at h hc hk ⊢ <;>
        simp [h]
    | k+3 => omega

/-- A decode at PC that fails: beyond memory, an unknown opcode, or an operand byte that would be at 256. -/
theorem decodeFrom_error {m : OpcodeMap} {s : State} {e} (h : decodeFrom m s.fetchByte = .error e) :
   (e = .noOpcode ∧ 255 < s.pc.toNat) ∨
   (∃ op, e = .unknownOpcode op ∧ s.pc.toNat ≤ 255 ∧ s.mem.read s.pc.toNat = op ∧ m.lookup op = none) ∨
   (∃ x, e = .missingOperand (m x) 1 ∧ s.pc.toNat = 255 ∧ s.mem.read s.pc.toNat = m x ∧
     m.lookup (m x) = some x ∧ 1 ≤ x.opcount) ∨
   (∃ x, e = .missingOperand (m x) 2 ∧ s.pc.toNat = 254 ∧ s.mem.read s.pc.toNat = m x ∧
     m.lookup (m x) = some x ∧ x.opcount = 2) := by
  unfold decodeFrom at h
  by_cases hp : s.pc.toNat + 0 ≤ 255
  swap; · rw [fetchByte_of_gt (by omega)] at h; simp at h; exact .inl ⟨h.symm, by omega⟩
  rw [fetchByte_of_le hp] at h
  simp only [Nat.add_zero] at h hp
  cases hl : m.lookup (s.mem.read s.pc.toNat) with
  | none => simp [hl] at h; exact .inr (.inl ⟨_, h.symm, hp, rfl, hl⟩)
  | some x =>
    simp only [hl] at h
    have ho := OpcodeMap.of_lookup hl
    right; right
    rw [← ho] at h hl ⊢
    by_cases h1 : s.pc.toNat + 1 ≤ 255
    · by_cases h2 : s.pc.toNat + 2 ≤ 255
      · have e1 := fetchByte_of_le h1
        have e2 := fetchByte_of_le h2
        cases x <;> simp [decodeOperands, decodeOne, decodeTwo, e1, e2] at h
      · have e2 : s.fetchByte 2 = none := fetchByte_of_gt (by omega)
        have e1 := fetchByte_of_le h1
        right
        refine ⟨x, ?_, by omega, rfl, hl, ?_⟩ <;>
        cases x <;> simp [Mnemonic.opcount, decodeOperands, decodeOne, decodeTwo, e1, e2] at h ⊢ <;> exact h.symm
    · have e1 : s.fetchByte 1 = none := fetchByte_of_gt (by omega)
      left
      refine ⟨x, ?_, by omega, rfl, hl, ?_⟩ <;>
        cases x <;> simp [Mnemonic.opcount, decodeOperands, decodeOne, decodeTwo, e1] at h ⊢ <;> exact h.symm

end Sys2Proof.Machine
end

