-- ==== Sys2Proof/Laws/Loader.lean ====
section
/-! SUPPORT. The Loader's text form: lines of binary digits, and the split into lines. -/

namespace Sys2Proof.Machine

/-- A character that is a binary digit is neither white space nor the comment sign. -/
theorem digit_not_special {c : Char} (h : c = '0' ∨ c = '1') : isBlank c = false ∧ (c != '#') = true ∧ c ≠ '\n' := by
  rcases h with rfl | rfl <;> decide

/-- Digits followed by a blank and a comment: the line up to the comment sign. -/
theorem stripComment_digits {ds : List Char} (h : ∀ c ∈ ds, c = '0' ∨ c = '1') (comment : List Char) :
    stripComment (ds ++ ' ' :: '#' :: comment) = ds ++ [' '] := by
  have hx : ∀ c ∈ ds, (c != '#') = true := fun c hc => (digit_not_special (h c hc)).2.1
  rw [stripComment, List.takeWhile_append_of_pos hx]
  rfl

theorem dropWhile_of_digit {c : Char} (cs : List Char) (h : c = '0' ∨ c = '1') :
    (c :: cs).dropWhile isBlank = c :: cs := by
  simp [List.dropWhile, (digit_not_special h).1]

theorem trim_digits {ds : List Char} (h : ∀ c ∈ ds, c = '0' ∨ c = '1') (hne : ds ≠ []) : trim (ds ++ [' ']) = ds := by
  have front : (ds ++ [' ']).dropWhile isBlank = ds ++ [' '] := by
    cases ds with
    | nil => exact absurd rfl hne
    | cons c cs => exact dropWhile_of_digit _ (h c (by simp))
  have back : ds.reverse.dropWhile isBlank = ds.reverse := by
    cases hr : ds.reverse with
    | nil => rfl
    | cons c cs => exact dropWhile_of_digit _ (h c (by rw [← List.mem_reverse, hr]; simp))
  have blank : isBlank ' ' = true := by decide
  rw [trim, front, List.reverse_append, List.reverse_singleton, List.singleton_append, List.dropWhile_cons_of_pos blank,
    back, List.reverse_reverse]

/-- A line of one to eight binary digits with a comment is one byte. -/
theorem parseLine_digits {ds : List Char} (h : ∀ c ∈ ds, c = '0' ∨ c = '1') (hne : ds ≠ []) (hlen : ds.length ≤ 8)
    (comment : List Char) :
    parseLine (ds ++ ' ' :: '#' :: comment) = .ok (some (BitVec.ofNat 8 (binaryValue ds))) := by
  have hall : ds.all (fun c => c == '0' || c == '1') = true := by
    simpa [List.all_eq_true] using h
  rw [parseLine, stripComment_digits h, trim_digits h hne]
  cases ds with
  | nil => exact absurd rfl hne
  | cons c cs => simp only [hlen, hall, and_self, if_true]

theorem digit_value (b : Bool) : (if (if b then '1' else '0') == '1' then 1 else 0) = b.toNat := by
  cases b <;> rfl

theorem binaryValue_binaryDigits (b : Byte) : binaryValue (binaryDigits b) = b.toNat := by
  simp only [binaryDigits, binaryValue, List.map_cons, List.map_nil, List.foldl_cons, List.foldl_nil, digit_value]
  revert b; decide

/-- When a line is malformed, and with what: its token is not empty and is not one to eight binary digits
(30_encoding.md R71). -/
theorem parseLine_error_iff {l : List Char} {e : LoadError} :
    parseLine l = .error e ↔
      trim (stripComment l) ≠ [] ∧ e = .malformedLiteral (trim (stripComment l)) ∧
        (8 < (trim (stripComment l)).length ∨ ∃ c ∈ trim (stripComment l), c ≠ '0' ∧ c ≠ '1') := by
  unfold parseLine
  cases ht : trim (stripComment l) with
  | nil => simp
  | cons c cs =>
    have hc : (¬ ((c :: cs).length ≤ 8 ∧ (c :: cs).all (fun c => c == '0' || c == '1') = true)) ↔
        (8 < (c :: cs).length ∨ ∃ d ∈ c :: cs, d ≠ '0' ∧ d ≠ '1') := by
      rw [not_and_or, Nat.not_le, List.all_eq_true]
      simp only [Bool.or_eq_true, beq_iff_eq, not_forall, not_or, exists_prop]
    rw [← hc]
    by_cases h : (c :: cs).length ≤ 8 ∧ (c :: cs).all (fun c => c == '0' || c == '1') = true
    · simp only [h, and_self, if_true, reduceCtorEq, not_true, and_false]
    · simp only [h, if_false, not_false_iff, Except.error.injEq, ne_eq, reduceCtorEq, true_and, and_true]
      exact eq_comm

/-- A text with a malformed line has no image, and the error is a malformed line's. -/
theorem parseLines_error_of_mem {ls : List (List Char)} {l : List Char} {e : LoadError} (hl : l ∈ ls)
    (h : parseLine l = .error e) : ∃ l' ∈ ls, ∃ e', parseLine l' = .error e' ∧ parseLines ls = .error e' := by
  induction ls with
  | nil => cases hl
  | cons k ks ih =>
    cases hk : parseLine k with
    | error e' => exact ⟨k, .head _, e', hk, by simp only [parseLines, hk, except_error_bind]⟩
    | ok b =>
      rcases List.mem_cons.1 hl with rfl | hl
      · rw [h] at hk; cases hk
      · obtain ⟨l', hm, e', h1, h2⟩ := ih hl
        exact ⟨l', .tail _ hm, e', h1, by simp only [parseLines, hk, h2, except_ok_bind, except_error_bind]⟩

/-- A launch that succeeds gives the reset state with another memory. -/
theorem launch_ok {i : Invocation} {s : State} (h : launch i = .ok s) : ∃ m, s = { State.reset with mem := m } := by
  rcases i with _ | _ | text
  · cases h
  · cases h
  · obtain ⟨image, -, h⟩ := except_bind_eq_ok.1 h
    unfold load at h
    split at h
    · cases h; exact ⟨_, rfl⟩
    · cases h

/-- A line that holds no line feed is the first line of a text it begins. -/
theorem splitLines_line {l : List Char} (h : '\n' ∉ l) (rest : List Char) :
    splitLines (l ++ '\n' :: rest) = l :: splitLines rest := by
  induction l with
  | nil => simp [splitLines]
  | cons c l ih =>
    simp only [List.mem_cons, not_or] at h
    have hc : (c == '\n') = false := by simpa using Ne.symm h.1
    simp [splitLines, hc, ih h.2]

end Sys2Proof.Machine
end

