-- ==== Sys2Proof/Laws/PerInstr.lean ====
section
/-! SUPPORT. Statements about every instruction as syntax, one lemma per constructor. The family EncodedLength: the bytes of
an instruction are its opcode byte followed by opcount operand bytes, under any OPCODE_MAP (30_encoding.md R60, R62). -/

namespace Sys2Proof.Laws.EncodedLength

def Statement (i : Instr) : Prop :=
  ∀ m : OpcodeMap, ∃ operands : List Byte,
    encodeWith m i = m i.mnemonic :: operands ∧ operands.length = i.mnemonic.opcount

theorem hlt : Statement .hlt := fun _ => ⟨[], rfl, rfl⟩
theorem ret : Statement .ret := fun _ => ⟨[], rfl, rfl⟩
theorem push (a : Byte) : Statement (.push a) := fun _ => ⟨[a], rfl, rfl⟩
theorem pop (a : Byte) : Statement (.pop a) := fun _ => ⟨[a], rfl, rfl⟩
theorem prn (a : Byte) : Statement (.prn a) := fun _ => ⟨[a], rfl, rfl⟩
theorem pra (a : Byte) : Statement (.pra a) := fun _ => ⟨[a], rfl, rfl⟩
theorem call (a : Byte) : Statement (.call a) := fun _ => ⟨[a], rfl, rfl⟩
theorem jmp (a : Byte) : Statement (.jmp a) := fun _ => ⟨[a], rfl, rfl⟩
theorem jeq (a : Byte) : Statement (.jeq a) := fun _ => ⟨[a], rfl, rfl⟩
theorem jne (a : Byte) : Statement (.jne a) := fun _ => ⟨[a], rfl, rfl⟩
theorem ldi (a imm : Byte) : Statement (.ldi a imm) := fun _ => ⟨[a, imm], rfl, rfl⟩
theorem add (a b : Byte) : Statement (.add a b) := fun _ => ⟨[a, b], rfl, rfl⟩
theorem mul (a b : Byte) : Statement (.mul a b) := fun _ => ⟨[a, b], rfl, rfl⟩
theorem cmp (a b : Byte) : Statement (.cmp a b) := fun _ => ⟨[a, b], rfl, rfl⟩

end Sys2Proof.Laws.EncodedLength
end

