-- ==== Sys2Proof/Tests/Slice0.lean ====
section
/-! SUPPORT. The model's own tests: the WellFormed smoke test, decoding of words written out from 30_encoding.md R66, single
steps with expected values from spec/95_test_vectors.md, and for each obligation with hypotheses a concrete state and
operands that meet them. -/

namespace Sys2Proof.Tests

open Sys2Proof Sys2Proof.Machine

/-- The next state of an outcome, if it has one. -/
def nextState : Host.Outcome State Fault Refusal → Option State
  | .next t => some t
  | _ => none

/-- The reset state with bytes placed at PC = 0. -/
def start (bytes : List Byte) : State := State.reset.placeAtPc bytes

/-- The reset state with PC moved and bytes placed there. -/
def startAt (pc : Pc) (bytes : List Byte) : State := (State.reset.setPc pc).placeAtPc bytes

/-- The reset state stopped by a fault: the record of an empty image (70_reset_and_hazards.md R197). -/
def faultedState : State := raise (.unknownInstruction 0) (some 0) State.reset

/-! ## WellFormed -/

theorem test_wellFormed_accepts_seven :
    (Instr.push 7).wellFormed = true ∧ (Instr.ldi 7 255).wellFormed = true ∧ (Instr.cmp 0 7).wellFormed = true ∧
    Instr.hlt.wellFormed = true ∧ Instr.ret.wellFormed = true := by decide

theorem test_wellFormed_refuses_operand_a :
    (Instr.push 8).wellFormed = false ∧ (Instr.pop 8).wellFormed = false ∧ (Instr.prn 255).wellFormed = false ∧
    (Instr.pra 8).wellFormed = false ∧ (Instr.call 8).wellFormed = false ∧ (Instr.jmp 8).wellFormed = false ∧
    (Instr.jeq 9).wellFormed = false ∧ (Instr.jne 8).wellFormed = false ∧ (Instr.ldi 8 0).wellFormed = false ∧
    (Instr.add 8 0).wellFormed = false ∧ (Instr.mul 8 0).wellFormed = false ∧ (Instr.cmp 8 0).wellFormed = false := by
  decide

theorem test_wellFormed_refuses_operand_b :
    (Instr.add 0 8).wellFormed = false ∧ (Instr.mul 0 8).wellFormed = false ∧ (Instr.cmp 0 8).wellFormed = false := by
  decide

/-! ## Decoding: the bytes of 30_encoding.md R66, bit by bit -/

theorem test_decode_hlt : decode [0b00000001] = .ok (.hlt, []) := by decide
theorem test_decode_ret : decode [0b00010001] = .ok (.ret, []) := by decide
theorem test_decode_push : decode [0b01000101, 0b00000001] = .ok (.push 1, []) := by decide
theorem test_decode_pop : decode [0b01000110, 0b00000010] = .ok (.pop 2, []) := by decide
theorem test_decode_prn : decode [0b01000111, 0b00000111] = .ok (.prn 7, []) := by decide
theorem test_decode_pra : decode [0b01001000, 0b11111111] = .ok (.pra 255, []) := by decide
theorem test_decode_call : decode [0b01010000, 0b00000011] = .ok (.call 3, []) := by decide
theorem test_decode_jmp : decode [0b01010100, 0b00000100] = .ok (.jmp 4, []) := by decide
theorem test_decode_jeq : decode [0b01010101, 0b00000101] = .ok (.jeq 5, []) := by decide
theorem test_decode_jne : decode [0b01010110, 0b00000110] = .ok (.jne 6, []) := by decide
theorem test_decode_ldi : decode [0b10000010, 0b00000000, 0b00001000] = .ok (.ldi 0 8, []) := by decide
theorem test_decode_add : decode [0b10100000, 0b00000010, 0b00000011] = .ok (.add 2 3, []) := by decide
theorem test_decode_mul : decode [0b10100010, 0b00000100, 0b00000101] = .ok (.mul 4 5, []) := by decide
theorem test_decode_cmp : decode [0b10100111, 0b00000110, 0b00000111, 0x01] = .ok (.cmp 6 7, [0x01]) := by decide

/-- 95_test_vectors.md 2.8: 0x83 is unknown although it looks like a two-operand opcode; it is reported before operands. -/
theorem test_decode_rejects_by_name :
    decode [] = .error .noOpcode ∧ decode [0x83] = .error (.unknownOpcode 0x83) ∧
    decode [0x00, 8, 9] = .error (.unknownOpcode 0x00) ∧ decode [0x82] = .error (.missingOperand 0x82 1) ∧
    decode [0x82, 0] = .error (.missingOperand 0x82 2) ∧ decode [0x55] = .error (.missingOperand 0x55 1) := by decide

theorem test_encode_ldi : encode (.ldi 0 8) = [0x82, 0x00, 0x08] := by decide

theorem test_decodeTableWord :
    decodeTableWord 24 0x030210 = none ∧ decodeTableWord 24 0x080082 = some (.ldi 0 8) ∧
    decodeTableWord 8 0xFFA0 = some (.add 0 0) ∧ decodeTableWord 16 0x0345 = some (.push 3) ∧
    decodeTableWord 8 0x01 = some .hlt := by decide

theorem test_withFetchWord_runs :
    (nextState (step (State.reset.withFetchWord 24 0x080082))).map (fun t => (t.reg 0, t.pc)) = some (8, 3) := by decide

/-! ## Single steps (95_test_vectors.md Part 2) -/

/-- 2.1, last line but two: PC reaches 256 without wrapping. -/
theorem test_ldi_to_end :
    (nextState (step (startAt 253 [0x82, 0x00, 0x07]))).map (fun t => (t.reg 0, t.pc)) = some (7, 256) := by decide

/-- 2.1: LDI R7 moves the stack without a check. -/
theorem test_ldi_sp :
    (nextState (step (start [0x82, 0x07, 0xFF]))).map (fun t => (t.sp, t.pc, t.run)) = some (255, 3, true) := by decide

/-- 2.2: 200 + 100 = 44. -/
theorem test_add_wraps :
    (nextState (step (((start [0xA0, 0, 1]).setReg 0 200).setReg 1 100))).map (fun t => (t.reg 0, t.reg 1, t.pc)) =
      some (44, 100, 3) := by decide

/-- 2.2: a = b doubles, 128 + 128 = 0. -/
theorem test_add_same_register :
    (nextState (step ((start [0xA0, 0, 0]).setReg 0 128))).map (fun t => (t.reg 0, t.fl)) = some (0, 0) := by decide

/-- 2.2: 255 * 255 = 1. -/
theorem test_mul_wraps :
    (nextState (step (((start [0xA2, 0, 1]).setReg 0 255).setReg 1 255))).map (fun t => (t.reg 0, t.reg 1)) =
      some (1, 255) := by decide

/-- 2.2: operand a is reported before operand b. -/
theorem test_mul_reports_a_first :
    (nextState (step (start [0xA2, 9, 10]))).map (·.fault) = some (some ⟨.invalidRegister 9, 0, some 0xA2⟩) := by decide

/-- 2.3: 255 against 0 is Greater (unsigned), and the old Less is gone. -/
theorem test_cmp_unsigned :
    (nextState (step ((start [0xA7, 0, 1]).setReg 0 255 |>.withFl 4))).map (fun t => (t.fl, t.reg 0, t.pc)) =
      some (2, 255, 3) := by decide

/-- 2.3: 5 against 9 is Less. -/
theorem test_cmp_less :
    (nextState (step (((start [0xA7, 0, 1]).setReg 0 5).setReg 1 9))).map (fun t => (t.fl, t.less)) =
      some (4, true) := by decide

/-- 2.4: PUSH R0 with R0 = 7. -/
theorem test_push :
    (nextState (step ((start [0x45, 0]).setReg 0 7))).map (fun t => (t.sp, t.mem.read 243, t.mem.read 244, t.pc)) =
      some (243, 7, 0, 2) := by decide

/-- 2.4: PUSH R7 stores the decremented SP. -/
theorem test_push_sp :
    (nextState (step (start [0x45, 7]))).map (fun t => (t.sp, t.mem.read 243)) = some (243, 243) := by decide

/-- 2.4: POP R1 from 243; the popped cell keeps its content. -/
theorem test_pop :
    (nextState (step (((start [0x46, 1]).setSp 243).storeByte 243 7))).map
      (fun t => (t.reg 1, t.sp, t.mem.read 243, t.pc)) = some (7, 244, 7, 2) := by decide

/-- 2.4: POP R7 gives the popped byte. -/
theorem test_pop_sp :
    (nextState (step (((start [0x46, 7]).setSp 243).storeByte 243 100))).map (·.sp) = some 100 := by decide

/-- 2.5: JMP R1 with R1 = 7 at PC = 3. -/
theorem test_jmp : (nextState (step ((startAt 3 [0x54, 1]).setReg 1 7))).map (·.pc) = some 7 := by decide

/-- 2.5: JEQ taken with FL = 1, and not with FL = 4. -/
theorem test_jeq :
    (nextState (step (((startAt 10 [0x55, 2]).setReg 2 30).withFl 1))).map (·.pc) = some 30 ∧
    (nextState (step (((startAt 10 [0x55, 2]).setReg 2 30).withFl 4))).map (·.pc) = some 12 := by decide

/-- 2.5: the register of a branch that is not taken is checked too. -/
theorem test_jeq_checks_register :
    (nextState (step (start [0x55, 9]))).map (·.fault) = some (some ⟨.invalidRegister 9, 0, some 0x55⟩) := by decide

/-- 2.5: JNE taken with FL = 0, and not with FL = 1. -/
theorem test_jne :
    (nextState (step ((startAt 10 [0x56, 2]).setReg 2 30))).map (·.pc) = some 30 ∧
    (nextState (step (((startAt 10 [0x56, 2]).setReg 2 30).withFl 1))).map (·.pc) = some 12 := by decide

/-- 2.6: CALL R3 at PC = 3. -/
theorem test_call :
    (nextState (step ((startAt 3 [0x50, 3]).setReg 3 8))).map (fun t => (t.sp, t.mem.read 243, t.pc)) =
      some (243, 5, 8) := by decide

/-- 2.6: CALL R7 jumps to the decremented SP. -/
theorem test_call_sp :
    (nextState (step (start [0x50, 7]))).map (fun t => (t.sp, t.mem.read 243, t.pc)) = some (243, 2, 243) := by decide

/-- 2.6: RET at PC = 11. -/
theorem test_ret :
    (nextState (step (((startAt 11 [0x11]).setSp 243).storeByte 243 5))).map (fun t => (t.sp, t.pc)) =
      some (244, 5) := by decide

/-- 2.6: RET with SP = 255 underflows. -/
theorem test_ret_underflow :
    (nextState (step ((startAt 5 [0x11]).setSp 255))).map (fun t => (t.fault, t.pc, t.run)) =
      some (some ⟨.stackUnderflow 255, 5, some 0x11⟩, 5, false) := by decide

/-- 2.7: PRN R7 with R7 = 244; the text is the digits and a line feed. -/
theorem test_prn :
    (nextState (step (start [0x47, 7]))).map (fun t => (t.out, t.outText, t.pc)) =
      some ([.dec 244], ['2', '4', '4', '\n'], 2) := by decide

/-- 2.7: PRA with 72 is the character H, without a line feed. -/
theorem test_pra :
    (nextState (step ((start [0x48, 0]).setReg 0 72))).map (fun t => (t.out, t.outText)) = some ([.chr 72], ['H']) := by
  decide

/-- 2.7: HLT at 255 leaves PC = 256 and no fault. -/
theorem test_hlt_at_end :
    (nextState (step (startAt 255 [0x01]))).map (fun t => (t.run, t.pc, t.fault, t.exitStatusZero)) =
      some (false, 256, none, some true) := by decide

/-! ## Fetch and the end of a run -/

/-- 2.8: 0x83 at 255, 0x82 at 255 and at 254, and PC = 256. -/
theorem test_fetch_faults :
    (nextState (step (startAt 255 [0x83]))).map (·.fault) = some (some ⟨.unknownInstruction 0x83, 255, some 0x83⟩) ∧
    (nextState (step (startAt 255 [0x82]))).map (·.fault) = some (some ⟨.addressOutOfRange 256, 255, some 0x82⟩) ∧
    (nextState (step (startAt 254 [0x82, 0]))).map (·.fault) = some (some ⟨.addressOutOfRange 256, 254, some 0x82⟩) ∧
    (nextState (step (State.reset.setPc 256))).map (·.fault) = some (some ⟨.addressOutOfRange 256, 256, none⟩) := by
  decide

/-- Part 3, P9 with SP_LIMIT = 244: the first pop faults. -/
theorem test_underflow_at_reset_with_lower_limit :
    (nextState (stepWith { Config.hw with spLimit := 244 } (start [0x46, 0]))).map (·.fault) =
      some (some ⟨.stackUnderflow 244, 0, some 0x46⟩) := by decide

theorem test_stopped_states_have_no_step :
    step State.reset.stop = .fault .halted ∧ step faultedState = .fault .faulted := ⟨rfl, rfl⟩

/-- 30_encoding.md R71: comments, empty lines and short literals. -/
theorem test_image_text :
    (parseLines (splitLines ['1', '0', ' ', '#', 'x', '\n', '\n', '#', '2', '\n', ' ', '0', '1', '1', '\r', '\n'])).toOption =
      some [2, 3] ∧
    (parseLine ['2']).toOption = none ∧ (parseLine ['1', '0', '0', '0', '0', '0', '0', '0', '0']).toOption = none := by
  decide

/-! ## Witnesses: concrete states and operands that meet an obligation's hypotheses together -/

theorem faultedState_inv : faultedState.Inv Config.hw where
  mem_wf := by decide
  pc_le := by decide
  fl_legal := by decide
  fault_sound := by
    intro r hr
    cases hr
    exact ⟨rfl, rfl, rfl, fun x => by cases x <;> decide⟩

theorem started_inv (bytes : List Byte) (h : (start bytes).mem.wf = true) : (start bytes).Inv Config.hw where
  mem_wf := h
  pc_le := Nat.zero_le 256
  fl_legal := rfl
  fault_sound := fun _ hr => nomatch hr

theorem witness_OperandCountsAreTheTables :
    decodeWith defaultOpcodeMap (0x82 :: [7, 255, 1]) = .ok (.ldi 7 255, [1]) := by decide

theorem witness_DecodeOfEncodeIsTheInstruction : Function.Injective Config.hw.opcodeMap := Config.hw_admissible.1

theorem witness_EncodeOfDecodeIsTheBytes :
    decodeWith defaultOpcodeMap [0xA7, 8, 255, 0] = .ok (.cmp 8 255, [0]) := by decide

theorem witness_StepRunsTheDecodedInstruction :
    (startAt 253 [0xA0, 0, 1]).run = true ∧ (startAt 253 [0xA0, 0, 1]).Holds [0xA0, 0, 1] ∧
    decode [0xA0, 0, 1] = .ok (.add 0 1, []) := by
  refine ⟨by decide, ?_, by decide⟩
  unfold State.Holds
  decide

theorem witness_PlacedWordRunsNext :
    (State.reset.setPc 253).mem.wf = true ∧ (State.reset.setPc 253).pc.toNat + 2 ≤ 255 ∧
    decodeTableWord 24 0xFF0782 = some (.ldi 7 255) := by decide

theorem witness_FetchFaultsAreTaken_pc :
    (State.reset.setPc 256).run = true ∧ (State.reset.setPc 256).pc.toNat = 256 := by decide

theorem witness_FetchFaultsAreTaken_opcode :
    (startAt 255 [0x83]).run = true ∧ (startAt 255 [0x83]).pc.toNat ≤ 255 ∧
    (startAt 255 [0x83]).mem.read (startAt 255 [0x83]).pc.toNat = 0x83 ∧ ∀ x, Config.hw.opcodeMap x ≠ 0x83 := by
  refine ⟨by decide, by decide, by decide, fun x => ?_⟩
  cases x <;> decide

theorem witness_FetchFaultsAreTaken_operand_a :
    (startAt 255 [0x54]).run = true ∧ (startAt 255 [0x54]).pc.toNat ≤ 255 ∧
    (startAt 255 [0x54]).mem.read (startAt 255 [0x54]).pc.toNat = Config.hw.opcodeMap .jmp ∧
    255 < (startAt 255 [0x54]).pc.toNat + Mnemonic.jmp.opcount := by decide

theorem witness_FetchFaultsAreTaken_operand_b :
    (startAt 254 [0x82, 0]).run = true ∧ (startAt 254 [0x82, 0]).pc.toNat ≤ 255 ∧
    (startAt 254 [0x82, 0]).mem.read (startAt 254 [0x82, 0]).pc.toNat = Config.hw.opcodeMap .ldi ∧
    255 < (startAt 254 [0x82, 0]).pc.toNat + Mnemonic.ldi.opcount := by decide

/-- Each row of the table of checks is the first to hold in some running state (95_test_vectors.md Part 2). -/
theorem witness_StepTakesTheFirstFaultInOrder_fault :
    firstFault Config.hw (State.reset.setPc 256) = some (.addressOutOfRange 256, none) ∧
    firstFault Config.hw (startAt 255 [0x83]) = some (.unknownInstruction 0x83, some 0x83) ∧
    firstFault Config.hw (startAt 255 [0x82]) = some (.addressOutOfRange 256, some 0x82) ∧
    firstFault Config.hw (startAt 254 [0x82, 8]) = some (.addressOutOfRange 256, some 0x82) ∧
    firstFault Config.hw ((start [0x45, 9]).setSp 0) = some (.invalidRegister 9, some 0x45) ∧
    firstFault Config.hw (start [0xA7, 0, 8]) = some (.invalidRegister 8, some 0xA7) ∧
    firstFault Config.hw ((startAt 254 [0x50, 0]).setSp 0) = some (.stackOverflow 0, some 0x50) ∧
    firstFault Config.hw (startAt 254 [0x50, 0]) = some (.addressOutOfRange 256, some 0x50) ∧
    firstFault Config.hw ((start [0x46, 0]).setSp 255) = some (.stackUnderflow 255, some 0x46) := by decide

theorem witness_StepTakesTheFirstFaultInOrder_none :
    firstFault Config.hw (startAt 253 [0x50, 0]) = none ∧ (startAt 253 [0x50, 0]).run = true ∧
    firstFault Config.hw ((startAt 255 [0x11]).setSp 254) = none ∧
    firstFault Config.hw ((startAt 254 [0x45, 7]).setSp 1) = none := by decide

theorem witness_RunIsClearedByHltAndFaults :
    (∃ t, step (start [0x01]) = .next t) ∧ State.reset.stop.run = false ∧
    (∃ t, exec (.jmp 0) State.reset.stop = .next t ∧ State.reset.stop.run = false) ∧
    (∃ t, exec .hlt State.reset = .next t ∧ State.reset.run = true ∧ t.run = false) ∧
    (∃ t, exec (.jmp 8) State.reset = .next t ∧ State.reset.run = true ∧ t.run = false) :=
  ⟨⟨_, rfl⟩, rfl, ⟨_, rfl, rfl⟩, ⟨_, rfl, rfl, rfl⟩, ⟨_, rfl, rfl, rfl⟩⟩

theorem witness_LoopEndsOnlyByHltOrFault :
    State.reset.stop.run = false ∧ (startAt 255 [0x01]).run = true ∧ (startAt 255 [0x01]).Holds (encode .hlt) ∧
    (∃ t, step (startAt 255 [0x01]) = .next t ∧ t.run = false) ∧
    (∃ t, step (startAt 255 [0x47]) = .next t ∧ t.run = false) := by
  refine ⟨rfl, rfl, ?_, ⟨_, rfl, rfl⟩, ⟨_, rfl, rfl⟩⟩
  unfold State.Holds
  decide

theorem witness_FaultedStateIsFinal :
    faultedState.run = false ∧ faultedState.fault = some ⟨.unknownInstruction 0, 0, some 0⟩ ∧
    faultedState.Inv Config.hw ∧ (∃ t, exec (.ldi 0 1) faultedState = .next t) ∧ faultedState.fault ≠ none :=
  ⟨rfl, rfl, faultedState_inv, ⟨_, rfl⟩, by decide⟩

theorem witness_FaultsArePrecise :
    (∃ t, exec (.push 0) (State.reset.setSp 0) = .next t ∧ t.fault ≠ (State.reset.setSp 0).fault) ∧
    (∃ t, exec (.push 0) (State.reset.setSp 1) = .next t ∧ t.fault = (State.reset.setSp 1).fault) :=
  ⟨⟨_, rfl, by decide⟩, ⟨_, rfl, rfl⟩⟩

theorem witness_StepKeepsTheInvariant :
    (start [0xA7, 0, 1]).Inv Config.hw ∧ ∃ t, step (start [0xA7, 0, 1]) = .next t ∧ t.fl = 1 :=
  ⟨started_inv _ (by decide), _, rfl, by decide⟩

theorem witness_LoadWritesTheImageOnly :
    (List.replicate 256 (1 : Byte)).length ≤ 256 ∧ 255 < (List.replicate 256 (1 : Byte)).length ∧
    [(1 : Byte)].length + 255 ≤ 256 := by
  simp only [List.length_replicate, List.length_cons, List.length_nil]
  omega

theorem witness_LongImageIsALoadFailure : 256 < (List.replicate 257 (0 : Byte)).length := by
  rw [List.length_replicate]
  omega

theorem witness_ImageTextIsLoadedByteForByte : '\n' ∉ ['L', 'D', 'I', '#'] := by decide

/-- LDI, ADD, MUL, CMP, JMP, JEQ, JNE, PRN, PRA: the operand byte is a register's index, R0 and R7 among them. -/
theorem witness_register_operands :
    (0 : Byte).toNat = (0 : RegIdx).val ∧ (7 : Byte).toNat = (7 : RegIdx).val := by decide

/-- The three cases of CMP, two of them at neighbouring values across the sign bit. -/
theorem witness_CmpSetsExactlyOneFlag :
    let s := (State.reset.setReg 0 127).setReg 1 128
    (s.reg 0).toNat < (s.reg 1).toNat ∧ s.reg 2 = s.reg 3 ∧ (0 : Byte).toNat = (0 : RegIdx).val ∧
    (1 : Byte).toNat = (1 : RegIdx).val ∧ (2 : Byte).toNat = (2 : RegIdx).val ∧
    (3 : Byte).toNat = (3 : RegIdx).val := by decide

theorem witness_PushStoresBelowTheStackTop :
    State.reset.mem.wf = true ∧ (7 : Byte).toNat = (7 : RegIdx).val ∧ (State.reset.setSp 1).sp ≠ 0 ∧
    (State.reset.setSp 255).sp ≠ 0 := by decide

theorem witness_PopLoadsTheStackTop :
    (7 : Byte).toNat = (7 : RegIdx).val ∧ (3 : Byte).toNat = (3 : RegIdx).val ∧ (3 : RegIdx) ≠ 7 ∧
    (State.reset.setSp 254).sp.toNat + 1 ≤ 255 ∧ (State.reset.setSp 0).sp.toNat + 1 ≤ 255 := by decide

theorem witness_branches_taken_and_not :
    (State.reset.withFl 1).equal = true ∧ (State.reset.withFl 4).equal = false ∧ State.reset.equal = false := by decide

theorem witness_CallPushesTheReturnAddress :
    State.reset.mem.wf = true ∧ (7 : Byte).toNat = (7 : RegIdx).val ∧ (State.reset.setSp 1).sp ≠ 0 ∧
    ((State.reset.setSp 1).setPc 253).pc.toNat + 2 ≤ 255 := by decide

theorem witness_RetPopsIntoPc : (State.reset.setSp 254).sp.toNat + 1 ≤ 255 := by decide

theorem witness_IllegalRegisterTrapsFirst :
    (Instr.push 8).registerOperands.find? (fun x => decide (7 < x.toNat)) = some 8 ∧
    (Instr.add 9 10).registerOperands.find? (fun x => decide (7 < x.toNat)) = some 9 ∧
    (Instr.cmp 7 255).registerOperands.find? (fun x => decide (7 < x.toNat)) = some 255 := by decide

theorem witness_StackOverflowIsForPushAndCall :
    ((7 : Byte).toNat ≤ 7 ∧ (State.reset.setSp 0).sp = 0 ∧ (7 : Byte).toNat = (7 : RegIdx).val ∧
      (State.reset.setSp 254).sp.toNat < 255) ∧
    (∃ t r, exec (.call 7) (State.reset.setSp 0) = .next t ∧ t.fault = some r ∧ (State.reset.setSp 0).fault ≠ some r ∧
      r.cause.kind = .stackOverflow) :=
  ⟨by decide, _, _, rfl, rfl, by decide, rfl⟩

theorem witness_CallAtTheTopOfMemoryTraps :
    (7 : Byte).toNat ≤ 7 ∧ (State.reset.setPc 254).pc.toNat = 254 ∧ (State.reset.setPc 254).sp ≠ 0 ∧
    ((State.reset.setPc 254).setSp 0).sp = 0 := by decide

/-- SP one below the bound and at it, for SP_LIMIT = 255 and 244. -/
theorem witness_UnderflowBoundIsSpLimit :
    let low : Config := { Config.hw with spLimit := 244 }
    (6 : Byte).toNat = (6 : RegIdx).val ∧ (State.reset.setSp 254).sp.toNat < Config.hw.spLimit.toNat ∧
    Config.hw.spLimit.toNat ≤ (State.reset.setSp 255).sp.toNat ∧ (State.reset.setSp 243).sp.toNat < low.spLimit.toNat ∧
    low.spLimit.toNat ≤ State.reset.sp.toNat ∧ (7 : Byte).toNat ≤ 7 ∧ (State.reset.setSp 255).sp = 255 := by decide

theorem witness_FlagsAreWrittenByCmpAndReadByBranches :
    ((Instr.jeq 0).mnemonic ≠ .cmp ∧ ∃ t, exec (.jeq 0) (State.reset.withFl 1) = .next t) ∧
    (∃ t, exec (.cmp 0 7) State.reset = .next t ∧ (0 : Byte).toNat ≤ 7 ∧ (7 : Byte).toNat ≤ 7) ∧
    ((State.reset.withFl 4).equal = State.reset.equal ∧ ∃ t, exec (.jne 0) State.reset = .next t) ∧
    (¬ ((Instr.add 0 0).mnemonic = .jeq ∨ (Instr.add 0 0).mnemonic = .jne) ∧
      ∃ t, exec (.add 0 0) State.reset = .next t) :=
  ⟨⟨by decide, _, rfl⟩, ⟨_, rfl, by decide, by decide⟩, ⟨by decide, _, rfl⟩, ⟨by decide, _, rfl⟩⟩

theorem witness_OnlyPushAndCallWriteMemory :
    (start [0x45, 7]).mem.wf = true ∧
    (∃ t, step (start [0x45, 7]) = .next t ∧ t.mem.read 243 ≠ (start [0x45, 7]).mem.read 243) ∧
    (∃ t, step (start [0x50, 7]) = .next t ∧ t.mem.read 243 ≠ (start [0x50, 7]).mem.read 243) :=
  ⟨by decide, ⟨_, rfl, by decide⟩, ⟨_, rfl, by decide⟩⟩

theorem witness_OnlyPrintsExtendTheOutput :
    (∃ t, step (start [0x47, 7]) = .next t ∧ t.out = [.dec 244]) ∧
    (∃ t, step (start [0x48, 7]) = .next t ∧ t.out = [.chr 244]) ∧
    (∃ t, step (start [0x01]) = .next t ∧ t.out = []) :=
  ⟨⟨_, rfl, by decide⟩, ⟨_, rfl, by decide⟩, ⟨_, rfl, by decide⟩⟩

theorem witness_OutputDoesNotInfluenceRuns :
    ∃ t, runSteps 3 (start [0x47, 7, 0x48, 7, 0x01]) = .next t ∧ t.out = [.dec 244, .chr 244] ∧ t.run = false :=
  ⟨_, rfl, by decide, by decide⟩

theorem witness_RegistersWrittenAreTheTables :
    (∃ t, exec (.pop 2) State.reset = .next t) ∧ (3 : RegIdx).val ∉ (Instr.pop 2).writtenRegisters :=
  ⟨⟨_, rfl⟩, by decide⟩

/-- A register a branch that is not taken does not read, and one that PUSH does not read. -/
theorem witness_OtherRegistersDoNotInfluence :
    ((1 : RegIdx).val ∉ (Instr.jeq 1).touchedRegisters State.reset.equal ∧ ∃ t, exec (.jeq 1) State.reset = .next t) ∧
    ((2 : RegIdx).val ∉ (Instr.push 1).touchedRegisters State.reset.equal ∧
      ∃ t, exec (.push 1) State.reset = .next t) :=
  ⟨⟨by decide, _, rfl⟩, ⟨by decide, _, rfl⟩⟩

theorem witness_UnsupportedAluOperationIsNeverRaised :
    ∃ t, step State.reset = .next t ∧ t.fault = some ⟨.unknownInstruction 0, 0, some 0⟩ ∧
      State.reset.fault ≠ some ⟨.unknownInstruction 0, 0, some 0⟩ :=
  ⟨_, rfl, by decide, by decide⟩

/-- SP at 1 and at SP_LIMIT. -/
theorem witness_PushThenPopBalances :
    State.reset.mem.wf = true ∧ (0 : Byte).toNat = (0 : RegIdx).val ∧ (6 : Byte).toNat = (6 : RegIdx).val ∧
    (0 : RegIdx) ≠ 7 ∧ (6 : RegIdx) ≠ 7 ∧ (State.reset.setSp 1).sp ≠ 0 ∧
    (State.reset.setSp 1).sp.toNat ≤ Config.hw.spLimit.toNat ∧ (State.reset.setSp 255).sp ≠ 0 ∧
    (State.reset.setSp 255).sp.toNat ≤ Config.hw.spLimit.toNat := by decide

theorem witness_StackIsLastInFirstOut :
    let pushed : List RegIdx := [0, 1, 1]
    let popped : List RegIdx := [2, 3, 0]
    State.reset.mem.wf = true ∧ 7 ∉ pushed ∧ 7 ∉ popped ∧ popped.Nodup ∧ pushed.length = popped.length ∧
    pushed.length ≤ (State.reset.setSp 3).sp.toNat := by decide

/-- A stack that is not filled, and one filled to address 0. -/
theorem witness_StackDepthIsTheStackPointer :
    let pushed : List RegIdx := [0, 1]
    State.reset.mem.wf = true ∧ 7 ∉ pushed ∧ pushed.length ≤ State.reset.sp.toNat ∧
    pushed.length ≤ (State.reset.setSp 2).sp.toNat ∧ pushed.length = (State.reset.setSp 2).sp.toNat := by decide

theorem witness_ReturnComesBackAfterTheCall :
    State.reset.mem.wf = true ∧ (7 : Byte).toNat ≤ 7 ∧ State.reset.sp ≠ 0 ∧
    (State.reset.setPc 253).pc.toNat + 2 ≤ 255 ∧
    ∃ u, exec (.call 7) State.reset = .next u ∧ (u.setReg 0 9).sp = u.sp ∧
      (u.setReg 0 9).mem.read u.sp.toNat = u.mem.read u.sp.toNat :=
  ⟨by decide, by decide, by decide, by decide, _, rfl, by decide, by decide⟩

theorem witness_ExactlyOneBranchIsTaken :
    (2 : Byte).toNat = (2 : RegIdx).val ∧ State.reset.pc + 2 ≠ (State.reset.reg 2).setWidth 9 := by decide

theorem witness_PushedByteIsFetchedNext :
    let s := (start [0x45, 0]).setSp 3
    s.mem.wf = true ∧ s.run = true ∧ s.Holds (encode (.push 0)) ∧ (0 : Byte).toNat = (0 : RegIdx).val ∧
    (0 : RegIdx) ≠ 7 ∧ s.sp ≠ 0 ∧ ∃ t, step s = .next t ∧ t.pc.toNat + 253 ≤ 255 := by
  refine ⟨by decide, by decide, ?_, by decide, by decide, by decide, ⟨_, rfl, by decide⟩⟩
  unfold State.Holds
  decide

theorem witness_FaultCodesAreTheTables :
    State.reset.fault = none ∧ faultedState.fault = some ⟨.unknownInstruction 0, 0, some 0⟩ := by decide

theorem witness_RunEndsHaltedOrFaulted :
    ((start [0x01]).Inv Config.hw ∧ ∃ t, step (start [0x01]) = .next t ∧ t.status = .halted) ∧
    ((start []).Inv Config.hw ∧ ∃ t, step (start []) = .next t ∧ t.status = .faulted) ∧
    ((start [0x54, 0]).Inv Config.hw ∧ ∃ t, step (start [0x54, 0]) = .next t ∧ t.status = .running) :=
  ⟨⟨started_inv _ (by decide), _, rfl, by decide⟩, ⟨started_inv _ (by decide), _, rfl, by decide⟩,
    ⟨started_inv _ (by decide), _, rfl, by decide⟩⟩

/-- A token with another digit, one of nine digits, and a start that succeeds. -/
theorem witness_LoadFailuresEndTheProcess :
    (['1', '2', ' ', '#'] ∈ splitLines ['1', '\n', '1', '2', ' ', '#'] ∧
      trim (stripComment ['1', '2', ' ', '#']) = ['1', '2'] ∧ '2' ∈ ['1', '2'] ∧ '2' ≠ '0' ∧ '2' ≠ '1') ∧
    8 < (trim (stripComment (List.replicate 9 '0'))).length ∧
    launch .noArgument = .error .missingArgument ∧
    (∃ s, launch (.program (some ['1', '\n'])) = .ok s ∧ s.mem = [(0, 1)]) :=
  ⟨by decide, by decide, rfl, _, rfl, by decide⟩

end Sys2Proof.Tests
end

section
/-! The flags register: who writes it, who reads it (10_state.md R22); and the registers at reset (10_state.md R16). -/

namespace Sys2Proof.Machine

@[simp] theorem State.withFl_pc (s : State) (v : Byte) : (s.withFl v).pc = s.pc := rfl
@[simp] theorem State.withFl_sp (s : State) (v : Byte) : (s.withFl v).sp = s.sp := rfl

/-- FL after a compare's write holds exactly one flag, by the order of the two values (42_compare.md R110). -/
theorem State.writeFl_compareFlags_count (s : State) (x y : Byte) :
    let t := s.writeFl (compareFlags x y)
    [t.less, t.greater, t.equal].count true = 1 := by
  simp only [State.less, State.greater, State.equal, State.writeFl_readFl, compareFlags]
  by_cases hlt : x.toNat < y.toNat
  · rw [if_pos hlt]; decide
  · by_cases hgt : y.toNat < x.toNat
    · rw [if_neg hlt, if_pos hgt]; decide
    · rw [if_neg hlt, if_neg hgt]; decide

/-- A CMP of two legal registers completes (42_compare.md R110). -/
theorem exec_cmp_of_legal {a b : Byte} {ra rb : RegIdx} (s : State) (ha : a.toNat = ra.val) (hb : b.toNat = rb.val) :
    exec (.cmp a b) s = .next ((s.writeFl (compareFlags (s.reg ra) (s.reg rb))).advance 3) := by
  have hok : cmpHandler a b s = .ok _ := cmpHandler_ok_iff.2 ⟨ra, rb, ha, hb, rfl⟩
  simp only [exec, execCmp, hok, complete_ok]

/-- Every instruction but CMP keeps FL, whether it completes or faults. -/
theorem exec_fl_of_ne_cmp {i : Instr} {s t : State} (hi : i.mnemonic ≠ .cmp) (h : exec i s = .next t) :
    t.fl = s.fl := by
  rw [exec_eq_execWith] at h
  obtain hok | ⟨k, -, rfl⟩ := execWith_eq_next h
  · obtain ⟨-, -, hfl, -⟩ := handler_ok_frame hok
    exact hfl hi
  · rfl

/-- Whether a handler raises, and what, does not depend on FL: its checks look at the operands, SP and PC. -/
theorem handler_withFl_error_iff {limit : Byte} {i : Instr} {s : State} {v : Byte} {k : FaultCause} :
    handler limit i (s.withFl v) = .error k ↔ handler limit i s = .error k := by
  simp only [handler_error_iff, State.withFl_sp, State.withFl_pc]

/-- A handler that completes does so with another FL as well, and to the same effect on everything but FL; a branch, the
only reader of FL, where Equal is the same. -/
theorem handler_withFl_ok {limit : Byte} {i : Instr} {s t : State} {v : Byte}
    (hequal : (i.mnemonic = .jeq ∨ i.mnemonic = .jne) → (s.withFl v).equal = s.equal)
    (h : handler limit i s = .ok t) :
    ∃ u, handler limit i (s.withFl v) = .ok u ∧ u.withFl 0 = t.withFl 0 := by
  cases i with
  | hlt =>
    obtain rfl := hltHandler_ok_iff.1 h
    exact ⟨_, rfl, rfl⟩
  | ret =>
    obtain ⟨hsp, rfl⟩ := retHandler_ok_iff.1 h
    exact ⟨_, retHandler_ok_iff.2 ⟨hsp, rfl⟩, rfl⟩
  | push a =>
    obtain ⟨ra, ha, hsp, rfl⟩ := pushHandler_ok_iff.1 h
    exact ⟨_, pushHandler_ok_iff.2 ⟨ra, ha, hsp, rfl⟩, rfl⟩
  | pop a =>
    obtain ⟨ra, ha, hsp, rfl⟩ := popHandler_ok_iff.1 h
    exact ⟨_, popHandler_ok_iff.2 ⟨ra, ha, hsp, rfl⟩, rfl⟩
  | prn a | pra a =>
    obtain ⟨ra, ha, rfl⟩ := printHandler_ok_iff.1 h
    exact ⟨_, printHandler_ok_iff.2 ⟨ra, ha, rfl⟩, rfl⟩
  | call a =>
    obtain ⟨ra, ha, hsp, hpc, rfl⟩ := callHandler_ok_iff.1 h
    exact ⟨_, callHandler_ok_iff.2 ⟨ra, ha, hsp, hpc, rfl⟩, rfl⟩
  | jmp a =>
    obtain ⟨ra, ha, rfl⟩ := jmpHandler_ok_iff.1 h
    exact ⟨_, jmpHandler_ok_iff.2 ⟨ra, ha, rfl⟩, rfl⟩
  | jeq a | jne a =>
    have heq := hequal (by simp [Instr.mnemonic])
    obtain ⟨ra, ha, rfl⟩ := branchHandler_ok_iff.1 h
    refine ⟨_, branchHandler_ok_iff.2 ⟨ra, ha, rfl⟩, ?_⟩
    rw [heq]
    split <;> rfl
  | ldi a imm =>
    obtain ⟨ra, ha, rfl⟩ := ldiHandler_ok_iff.1 h
    exact ⟨_, ldiHandler_ok_iff.2 ⟨ra, ha, rfl⟩, rfl⟩
  | add a b | mul a b =>
    obtain ⟨ra, rb, ha, hb, r, hr, rfl⟩ := aluHandler_ok_iff.1 h
    exact ⟨_, aluHandler_ok_iff.2 ⟨ra, rb, ha, hb, r, hr, rfl⟩, rfl⟩
  | cmp a b =>
    obtain ⟨ra, rb, ha, hb, rfl⟩ := cmpHandler_ok_iff.1 h
    exact ⟨_, cmpHandler_ok_iff.2 ⟨ra, rb, ha, hb, rfl⟩, rfl⟩

/-- The same of a whole instruction, its fault included. -/
theorem exec_withFl {i : Instr} {s t : State} {v : Byte}
    (hequal : (i.mnemonic = .jeq ∨ i.mnemonic = .jne) → (s.withFl v).equal = s.equal) (h : exec i s = .next t) :
    ∃ u, exec i (s.withFl v) = .next u ∧ u.withFl 0 = t.withFl 0 := by
  rw [exec_eq_execWith] at h ⊢
  obtain hok | ⟨k, herr, rfl⟩ := execWith_eq_next h
  · obtain ⟨u, hu, hut⟩ := handler_withFl_ok hequal hok
    exact ⟨u, by rw [execWith, hu, complete_ok], hut⟩
  · refine ⟨raise k (some (Config.hw.opcodeMap i.mnemonic)) (s.withFl v), ?_, rfl⟩
    rw [execWith, handler_withFl_error_iff.2 herr, complete_error]

/-- Settles O39: FL's frame, the one flag of a compare, and the independence of FL, each a lemma over all instructions. -/
theorem flagsAreWrittenByCmpAndReadByBranches : Obligations.FlagsAreWrittenByCmpAndReadByBranches := by
  refine ⟨fun i s t => exec_fl_of_ne_cmp, fun s t a b h ha hb => ?_, fun i s t v => exec_withFl⟩
  rw [exec_cmp_of_legal (ra := ⟨a.toNat, by omega⟩) (rb := ⟨b.toNat, by omega⟩) s rfl rfl] at h
  cases h
  exact s.writeFl_compareFlags_count _ _

/-- Settles O15, by evaluating each of the eight registers of the reset state. -/
theorem registersAtReset : Obligations.RegistersAtReset :=
  ⟨by decide, rfl, rfl⟩

end Sys2Proof.Machine
end

section
/-! Operand counts (30_encoding.md R62): the bytes an encoding has, and the bytes a decode takes. -/

namespace Sys2Proof

/-- The family EncodedLength over all instructions. -/
theorem encodedLength : (i : Instr) → Laws.EncodedLength.Statement i
  | .hlt => Laws.EncodedLength.hlt
  | .ret => Laws.EncodedLength.ret
  | .push a => Laws.EncodedLength.push a
  | .pop a => Laws.EncodedLength.pop a
  | .prn a => Laws.EncodedLength.prn a
  | .pra a => Laws.EncodedLength.pra a
  | .call a => Laws.EncodedLength.call a
  | .jmp a => Laws.EncodedLength.jmp a
  | .jeq a => Laws.EncodedLength.jeq a
  | .jne a => Laws.EncodedLength.jne a
  | .ldi a imm => Laws.EncodedLength.ldi a imm
  | .add a b => Laws.EncodedLength.add a b
  | .mul a b => Laws.EncodedLength.mul a b
  | .cmp a b => Laws.EncodedLength.cmp a b

theorem length_encodeWith (m : OpcodeMap) (i : Instr) : (encodeWith m i).length = 1 + i.mnemonic.opcount := by
  obtain ⟨operands, hbytes, hcount⟩ := encodedLength i m
  rw [hbytes, List.length_cons, hcount, Nat.add_comm]

/-- The opcode byte is there, and the row it selects is the row of the instruction decoded. -/
theorem lookup_of_decodeFrom {m : OpcodeMap} {byteAt : Nat → Option Byte} {i : Instr}
    (h : decodeFrom m byteAt = .ok i) : ∃ op, byteAt 0 = some op ∧ m.lookup op = some i.mnemonic := by
  unfold decodeFrom at h
  split at h
  · cases h
  next op hop =>
    split at h
    · cases h
    next x hx => exact ⟨op, hop, by rw [hx, mnemonic_of_decodeOperands h]⟩

/-- What a list decode answers: the instruction read from the bytes, and the bytes after its length. -/
theorem decodeWith_ok_iff {m : OpcodeMap} {bytes tail : List Byte} {i : Instr} :
    decodeWith m bytes = .ok (i, tail) ↔
      decodeFrom m (fun k => bytes[k]?) = .ok i ∧ tail = bytes.drop i.length := by
  unfold decodeWith
  cases decodeFrom m (fun k => bytes[k]?) with
  | error e => simp
  | ok j =>
    simp only [Except.ok.injEq, Prod.mk.injEq]
    constructor <;> (rintro ⟨rfl, rfl⟩; exact ⟨rfl, rfl⟩)

/-- A decode takes the opcode byte and as many bytes after it as the row has that the opcode byte selects. -/
theorem decodeWith_cons_takes_opcount {m : OpcodeMap} {op : Byte} {rest tail : List Byte} {i : Instr}
    (h : decodeWith m (op :: rest) = .ok (i, tail)) :
    m.lookup op = some i.mnemonic ∧ tail = rest.drop i.mnemonic.opcount := by
  obtain ⟨hfrom, rfl⟩ := decodeWith_ok_iff.1 h
  obtain ⟨op', hop, hrow⟩ := lookup_of_decodeFrom hfrom
  cases hop
  exact ⟨hrow, by rw [Instr.length, Nat.add_comm, List.drop_succ_cons]⟩

/-- Bits 7 and 6 of a default opcode byte are its operand count (30_encoding.md R67). -/
theorem defaultOpcodeMap_div_64 (x : Mnemonic) : (defaultOpcodeMap x).toNat / 64 = x.opcount := by
  cases x <;> rfl

/-- Settles O2: the counts by evaluation, the length of an encoding from the family EncodedLength, the bytes a decode takes
from the row its opcode byte selects, and the top two bits row by row. -/
theorem operandCountsAreTheTables : Obligations.OperandCountsAreTheTables :=
  ⟨rfl, rfl, by decide, by decide, length_encodeWith,
    fun _ _ _ _ i h => ⟨i.mnemonic, decodeWith_cons_takes_opcount h⟩, defaultOpcodeMap_div_64⟩

end Sys2Proof
end

section
/-! A faulted state is final (60_exceptions.md R171): no step leaves it, and no instruction clears its record. -/

namespace Sys2Proof.Machine

/-- A stopped state has no next step (40_instruction_cycle.md R85). -/
theorem step_of_run_eq_false {s : State} (h : s.run = false) : step s = .fault (finalFault s) := by
  rw [step, if_neg (by simp [h])]

theorem finalFault_of_fault_eq_some {s : State} {r : FaultRecord} (h : s.fault = some r) :
    finalFault s = .faulted := by
  rw [finalFault, h]

/-- Under the invariant a record stands only in a stopped state (10_state.md R26). -/
theorem State.Inv.run_eq_false_of_fault_eq_some {c : Config} {s : State} {r : FaultRecord} (hinv : s.Inv c)
    (h : s.fault = some r) : s.run = false :=
  (hinv.fault_sound r h).1

/-- An instruction leaves FAULT as it was or writes a record of its own. -/
theorem exec_fault_eq_or_exists_raise {i : Instr} {s t : State} (h : exec i s = .next t) :
    t.fault = s.fault ∨ ∃ k, t = raise k (some (Config.hw.opcodeMap i.mnemonic)) s := by
  rw [exec_eq_execWith] at h
  obtain hok | ⟨k, -, ht⟩ := execWith_eq_next h
  · exact .inl (handler_ok_frame hok).1
  · exact .inr ⟨k, ht⟩

/-- No instruction clears a record. -/
theorem exec_fault_ne_none {i : Instr} {s t : State} (h : exec i s = .next t) (hs : s.fault ≠ none) :
    t.fault ≠ none := by
  obtain hkeep | ⟨k, rfl⟩ := exec_fault_eq_or_exists_raise h
  · rwa [hkeep]
  · rw [raise_fault]
    exact Option.some_ne_none _

/-- Settles O12: a stopped state has no next step, the invariant stops every state that carries a record, and an instruction
leaves FAULT as it was or writes a record. -/
theorem faultedStateIsFinal : Obligations.FaultedStateIsFinal := by
  refine ⟨fun s r hrun hfault => ?_, fun c s r hinv hfault t hstep => ?_, fun i s t => exec_fault_ne_none,
    fun s => ⟨rfl, rfl⟩⟩
  · rw [step_of_run_eq_false hrun, finalFault_of_fault_eq_some hfault]
  · rw [step_of_run_eq_false (hinv.run_eq_false_of_fault_eq_some hfault)] at hstep
    cases hstep

end Sys2Proof.Machine
end

section
/-! The Loader writes the image to MEM from address 0 and nothing else (70_reset_and_hazards.md R193, R194). -/

namespace Sys2Proof.Machine

theorem load_of_length_le {image : List Byte} (s : State) (h : image.length ≤ Config.memSize) :
    load image s = .ok { s with mem := s.mem.writeBytes 0 image } := by
  rw [load, if_pos h]

/-- The memory of a loaded image reads as the image, 0 beyond its end. -/
theorem Memory.read_writeBytes_nil {image : List Byte} (h : image.length ≤ Config.memSize) (k : Nat) :
    (Memory.writeBytes [] 0 image).read k = image.getD k 0 := by
  rw [Memory.read_writeBytes image 0 k rfl (by omega)]
  by_cases hk : k < image.length
  · rw [dif_pos (by omega), List.getD_eq_getElem _ _ hk]
    rfl
  · rw [dif_neg (by omega), List.getD_eq_default _ _ (by omega), Memory.read_nil]

/-- Appended zeros are not seen by a read that answers 0 beyond the end. -/
theorem getD_append_zeros (image : List Byte) (n k : Nat) :
    (image ++ List.replicate n 0).getD k 0 = image.getD k 0 := by
  by_cases hk : k < image.length
  · exact List.getD_append _ _ _ _ hk
  · rw [List.getD_append_right _ _ _ _ (by omega), List.getD_eq_getElem?_getD,
      List.getElem?_getD_replicate_default_eq, List.getD_eq_default _ _ (by omega)]

/-- Zeros loaded behind an image leave no trace: both memories are canonical and read alike, so they are equal. -/
theorem Memory.writeBytes_append_zeros {image : List Byte} {n : Nat}
    (h : (image ++ List.replicate n 0).length ≤ Config.memSize) :
    Memory.writeBytes [] 0 (image ++ List.replicate n 0) = Memory.writeBytes [] 0 image := by
  have himage : image.length ≤ Config.memSize := by
    rw [List.length_append] at h
    omega
  refine Memory.ext_of_read (Memory.wf_writeBytes 0 _ rfl) (Memory.wf_writeBytes 0 _ rfl) fun k => ?_
  rw [Memory.read_writeBytes_nil h, Memory.read_writeBytes_nil himage, getD_append_zeros]

/-- Settles O18: what the loaded memory reads is the image with 0 beyond its end, the rest of the state is the reset state's
by the form of `load`, and zeros appended to the image give the same canonical memory. -/
theorem loadWritesTheImageOnly : Obligations.LoadWritesTheImageOnly := by
  intro image h
  refine ⟨_, load_of_length_le State.reset h, fun k hk => ?_, fun k hk => ?_, fun _ => rfl, rfl, rfl, rfl, rfl, rfl,
    fun n hn => ?_⟩
  · exact (Memory.read_writeBytes_nil h k).trans (List.getD_eq_getElem _ _ hk)
  · exact (Memory.read_writeBytes_nil h k).trans (List.getD_eq_default _ _ hk)
  · have hlen : (image ++ List.replicate n 0).length ≤ Config.memSize := by
      rwa [List.length_append, List.length_replicate]
    rw [load_of_length_le State.reset hlen]
    simp only [State.reset, Memory.writeBytes_append_zeros hlen]

end Sys2Proof.Machine
end

section
/-! Encoding and decoding are inverse (30_encoding.md R60 to R66), and which bytes are unknown opcodes (R68). -/

namespace Sys2Proof

/-- An instruction with one operand byte is decoded exactly where there is a byte at offset 1. -/
theorem decodeOne_ok_iff {byteAt : Nat → Option Byte} {op : Byte} {f : Byte → Instr} {i : Instr} :
    decodeOne byteAt op f = .ok i ↔ ∃ a, byteAt 1 = some a ∧ f a = i := by
  unfold decodeOne
  cases byteAt 1 <;> simp

/-- An instruction with two operand bytes is decoded exactly where there are bytes at offsets 1 and 2. -/
theorem decodeTwo_ok_iff {byteAt : Nat → Option Byte} {op : Byte} {f : Byte → Byte → Instr} {i : Instr} :
    decodeTwo byteAt op f = .ok i ↔ ∃ a b, byteAt 1 = some a ∧ byteAt 2 = some b ∧ f a b = i := by
  unfold decodeTwo
  cases byteAt 1 <;> cases byteAt 2 <;> simp

/-- The bytes from offset 0 are those of the list. -/
def Yields (byteAt : Nat → Option Byte) (bytes : List Byte) : Prop :=
  ∀ k < bytes.length, byteAt k = bytes[k]?

@[simp] theorem yields_one {byteAt : Nat → Option Byte} {x : Byte} : Yields byteAt [x] ↔ byteAt 0 = some x := by
  simp [Yields]

@[simp] theorem yields_two {byteAt : Nat → Option Byte} {x a : Byte} :
    Yields byteAt [x, a] ↔ byteAt 0 = some x ∧ byteAt 1 = some a := by
  simp only [Yields, List.length_cons, List.length_nil, Nat.forall_lt_succ_left, Nat.not_lt_zero, false_implies,
    implies_true, and_true, List.getElem?_cons_zero, List.getElem?_cons_succ, Nat.zero_add]

@[simp] theorem yields_three {byteAt : Nat → Option Byte} {x a b : Byte} :
    Yields byteAt [x, a, b] ↔ byteAt 0 = some x ∧ byteAt 1 = some a ∧ byteAt 2 = some b := by
  simp only [Yields, List.length_cons, List.length_nil, Nat.forall_lt_succ_left, Nat.not_lt_zero, false_implies,
    implies_true, and_true, List.getElem?_cons_zero, List.getElem?_cons_succ, Nat.zero_add]

/-- The operands of an instruction are read exactly where its bytes stand, whatever the opcode byte. -/
theorem decodeOperands_ok_iff {m : OpcodeMap} {byteAt : Nat → Option Byte} {i : Instr}
    (h0 : byteAt 0 = some (m i.mnemonic)) (op : Byte) :
    decodeOperands byteAt op i.mnemonic = .ok i ↔ Yields byteAt (encodeWith m i) := by
  cases i with
  | hlt | ret => simpa [decodeOperands, Instr.mnemonic, encodeWith] using h0
  | push a | pop a | prn a | pra a | call a | jmp a | jeq a | jne a =>
    simp only [Instr.mnemonic] at h0
    simp [decodeOperands, decodeOne_ok_iff, Instr.mnemonic, encodeWith, h0]
  | ldi a b | add a b | mul a b | cmp a b =>
    simp only [Instr.mnemonic] at h0
    simp [decodeOperands, decodeTwo_ok_iff, Instr.mnemonic, encodeWith, h0]

/-- The encoding begins with the opcode byte. -/
theorem Yields.opcode {m : OpcodeMap} {byteAt : Nat → Option Byte} {i : Instr}
    (h : Yields byteAt (encodeWith m i)) : byteAt 0 = some (m i.mnemonic) := by
  obtain ⟨operands, hbytes, -⟩ := encodedLength i m
  rw [h 0 (by rw [hbytes]; exact Nat.succ_pos _), hbytes]
  rfl

/-- A source of bytes that begins with an encoding decodes to its instruction, where the opcode bytes are distinct. -/
theorem decodeFrom_of_yields {m : OpcodeMap} (hm : Function.Injective m) {byteAt : Nat → Option Byte} {i : Instr}
    (h : Yields byteAt (encodeWith m i)) : decodeFrom m byteAt = .ok i := by
  simp only [decodeFrom, h.opcode, OpcodeMap.lookup_self hm]
  exact (decodeOperands_ok_iff h.opcode _).2 h

/-- A source of bytes that decodes to an instruction begins with its encoding. -/
theorem yields_of_decodeFrom {m : OpcodeMap} {byteAt : Nat → Option Byte} {i : Instr}
    (h : decodeFrom m byteAt = .ok i) : Yields byteAt (encodeWith m i) := by
  obtain ⟨op, hop, hrow⟩ := lookup_of_decodeFrom h
  have hcode : byteAt 0 = some (m i.mnemonic) := by rw [hop, OpcodeMap.of_lookup hrow]
  simp only [decodeFrom, hop, hrow] at h
  exact (decodeOperands_ok_iff hcode op).1 h

/-- A list's bytes are those of `l` from offset 0 exactly when the list is `l` and what follows its length. -/
theorem yields_getElem?_iff {bytes l : List Byte} :
    Yields (fun k => bytes[k]?) l ↔ bytes = l ++ bytes.drop l.length := by
  constructor
  · intro h
    refine List.ext_getElem? fun k => ?_
    by_cases hk : k < l.length
    · rw [List.getElem?_append_left hk]
      exact h k hk
    · rw [List.getElem?_append_right (by omega), List.getElem?_drop, Nat.add_sub_cancel' (by omega)]
  · intro h k hk
    rw [h]
    exact List.getElem?_append_left hk

/-- Settles O3: the bytes from offset 0 are the encoding, whatever follows, and what is dropped is its length. -/
theorem decodeOfEncodeIsTheInstruction : Obligations.DecodeOfEncodeIsTheInstruction := by
  intro m hm i rest
  have hlength : (encodeWith m i).length = i.length := length_encodeWith m i
  have hyields : Yields (fun k => (encodeWith m i ++ rest)[k]?) (encodeWith m i) :=
    fun k hk => List.getElem?_append_left hk
  refine decodeWith_ok_iff.2 ⟨decodeFrom_of_yields hm hyields, ?_⟩
  rw [← hlength, List.drop_left]

/-- The bytes a list decode reads are the encoding of what it answers. -/
theorem eq_encodeWith_append_of_decodeWith {m : OpcodeMap} {bytes rest : List Byte} {i : Instr}
    (h : decodeWith m bytes = .ok (i, rest)) : bytes = encodeWith m i ++ rest := by
  obtain ⟨hfrom, rfl⟩ := decodeWith_ok_iff.1 h
  have hlength : (encodeWith m i).length = i.length := length_encodeWith m i
  rw [← hlength]
  exact yields_getElem?_iff.1 (yields_of_decodeFrom hfrom)

/-- Settles O4, by the decoder's reading of a list as the source of its bytes. -/
theorem encodeOfDecodeIsTheBytes : Obligations.EncodeOfDecodeIsTheBytes :=
  fun _ _ _ _ => eq_encodeWith_append_of_decodeWith

/-- Settles O1, by evaluating the decoder on each of the fourteen words. -/
theorem encodingTableDecodes : Obligations.EncodingTableDecodes := by
  unfold Obligations.EncodingTableDecodes
  and_intros <;> decide

/-- An opcode is reported unknown exactly when no mnemonic has it: once a mnemonic is found, only an operand can be
missing. -/
theorem decodeFrom_unknownOpcode_iff {m : OpcodeMap} {byteAt : Nat → Option Byte} {op : Byte} (h : byteAt 0 = some op) :
    decodeFrom m byteAt = .error (.unknownOpcode op) ↔ m.lookup op = none := by
  have hone (f : Byte → Instr) : decodeOne byteAt op f ≠ .error (.unknownOpcode op) := by
    unfold decodeOne
    cases byteAt 1 <;> simp
  have htwo (f : Byte → Byte → Instr) : decodeTwo byteAt op f ≠ .error (.unknownOpcode op) := by
    unfold decodeTwo
    cases byteAt 1 <;> cases byteAt 2 <;> simp
  cases hrow : m.lookup op with
  | none => simp [decodeFrom, h, hrow]
  | some x => cases x <;> simp [decodeFrom, h, hrow, decodeOperands, hone, htwo]

/-- A list decode fails as the decode from the list's bytes does. -/
theorem decodeWith_error_iff {m : OpcodeMap} {bytes : List Byte} {e : DecodeError} :
    decodeWith m bytes = .error e ↔ decodeFrom m (fun k => bytes[k]?) = .error e := by
  unfold decodeWith
  cases decodeFrom m (fun k => bytes[k]?) <;> simp

/-- The default opcode bytes are the fourteen of 30_encoding.md R66. -/
theorem defaultOpcodeMap_ne_iff (op : Byte) : (∀ x, defaultOpcodeMap x ≠ op) ↔
    op ∉ ([0x01, 0x11, 0x45, 0x46, 0x47, 0x48, 0x50, 0x54, 0x55, 0x56, 0x82, 0xA0, 0xA2, 0xA7] : List Byte) := by
  have hlist : ([0x01, 0x11, 0x45, 0x46, 0x47, 0x48, 0x50, 0x54, 0x55, 0x56, 0x82, 0xA0, 0xA2, 0xA7] : List Byte) =
      Mnemonic.all.map defaultOpcodeMap := rfl
  rw [hlist]
  simp [Mnemonic.mem_all]

/-- Settles O5: an opcode is unknown exactly when no mnemonic has it, and the default map has these fourteen bytes. -/
theorem unknownOpcodesAreRejected : Obligations.UnknownOpcodesAreRejected := by
  have hiff (op : Byte) (rest : List Byte) : decode (op :: rest) = .error (.unknownOpcode op) ↔
      op ∉ ([0x01, 0x11, 0x45, 0x46, 0x47, 0x48, 0x50, 0x54, 0x55, 0x56, 0x82, 0xA0, 0xA2, 0xA7] : List Byte) := by
    rw [← defaultOpcodeMap_ne_iff, decode, decodeWith_error_iff, decodeFrom_unknownOpcode_iff rfl,
      OpcodeMap.lookup_eq_none]
    rfl
  exact ⟨hiff, fun rest => (hiff 0x00 rest).2 (by decide)⟩

end Sys2Proof
end

section
/-! What a legal instruction gives, instruction by instruction: the next state, and what it leaves unchanged
(41_load_and_alu.md
to 45_io_and_halt.md). -/

namespace Sys2Proof.Machine

/-! ### An instruction's outcome from its handler's -/

theorem execWith_of_handler_ok {c : Config} {i : Instr} {s t : State} (h : handler c.spLimit i s = .ok t) :
    execWith c i s = .next t := by
  rw [execWith, h, complete_ok]

theorem execWith_of_handler_error {c : Config} {i : Instr} {s : State} {k : FaultCause}
    (h : handler c.spLimit i s = .error k) :
    execWith c i s = .next (raise k (some (c.opcodeMap i.mnemonic)) s) := by
  rw [execWith, h, complete_error]

theorem exec_of_handler_ok {i : Instr} {s t : State} (h : handler Config.hw.spLimit i s = .ok t) :
    exec i s = .next t := by
  rw [exec_eq_execWith, execWith_of_handler_ok h]

theorem exec_of_handler_error {i : Instr} {s : State} {k : FaultCause}
    (h : handler Config.hw.spLimit i s = .error k) : exec i s = .next (Trapped i k s) := by
  rw [exec_eq_execWith, execWith_of_handler_error h, Trapped]

/-! ### Arithmetic of SP and PC -/

theorem toNat_sub_one {b : Byte} (h : b ≠ 0) : (b - 1).toNat = b.toNat - 1 := by
  bv_omega

theorem toNat_add_one {b : Byte} (h : b.toNat + 1 ≤ 255) : (b + 1).toNat = b.toNat + 1 := by
  bv_omega

/-- A byte in PC is the address it is (44_control_transfer.md R135). -/
theorem toNat_setWidth_pc (b : Byte) : (b.setWidth 9 : Pc).toNat = b.toNat := by
  have := b.isLt
  rw [BitVec.toNat_setWidth]
  omega

theorem pcAdvanced_of_pc {n : Nat} {s t : State} (h : t.pc = s.pc + BitVec.ofNat 9 n) : PcAdvanced n s t := by
  refine ⟨h, fun hle => ?_⟩
  rw [h, BitVec.toNat_add, BitVec.toNat_ofNat]
  omega

/-! ### The register frame of the register writes -/

theorem sameRegistersExcept_refl (rs : List RegIdx) (s : State) : SameRegistersExcept rs s s := fun _ _ => rfl

theorem sameRegistersExcept_writeReg (r : RegIdx) (v : Nat) (s : State) :
    SameRegistersExcept [r] s (s.writeReg r v) := by
  intro q hq
  rw [State.writeReg_reg, if_neg (List.ne_of_not_mem_cons hq)]

theorem sameRegistersExcept_setSp (v : Byte) (s : State) : SameRegistersExcept [7] s (s.setSp v) := by
  intro q hq
  exact (State.setSp_reg s q v).trans (if_neg (List.ne_of_not_mem_cons hq))

/-! ### LDI and the ALU -/

section
variable {a b : Byte} {ra rb : RegIdx} (s : State)

theorem exec_ldi_of_legal (imm : Byte) (ha : a.toNat = ra.val) :
    exec (.ldi a imm) s = .next ((s.writeReg ra imm.toNat).advance 3) :=
  exec_of_handler_ok (ldiHandler_ok_iff.2 ⟨ra, ha, rfl⟩)

theorem exec_add_of_legal (ha : a.toNat = ra.val) (hb : b.toNat = rb.val) :
    exec (.add a b) s = .next ((s.writeReg ra ((s.reg ra).toNat + (s.reg rb).toNat)).advance 3) :=
  exec_of_handler_ok (aluHandler_ok_iff.2 ⟨ra, rb, ha, hb, _, rfl, rfl⟩)

theorem exec_mul_of_legal (ha : a.toNat = ra.val) (hb : b.toNat = rb.val) :
    exec (.mul a b) s = .next ((s.writeReg ra ((s.reg ra).toNat * (s.reg rb).toNat)).advance 3) :=
  exec_of_handler_ok (aluHandler_ok_iff.2 ⟨ra, rb, ha, hb, _, rfl, rfl⟩)

end

/-- A register reads after a write what was written, modulo 256. -/
theorem State.writeReg_reg_self (s : State) (r : RegIdx) (v : Nat) : (s.writeReg r v).reg r = BitVec.ofNat 8 v := by
  rw [State.writeReg_reg, if_pos rfl]

/-- Settles O22: the handler's state is a register write and PC advanced. -/
theorem ldiLoadsTheImmediate : Obligations.LdiLoadsTheImmediate := by
  intro s a imm ra ha
  refine ⟨_, exec_ldi_of_legal s imm ha, ?_, sameRegistersExcept_writeReg ra _ s, fun _ => rfl, rfl, ⟨rfl, rfl⟩, rfl,
    pcAdvanced_of_pc rfl⟩
  rw [State.advance_reg, State.writeReg_reg_self, BitVec.ofNat_toNat, BitVec.setWidth_eq]

/-- Settles O23: the sum is written by a register write, which reduces it modulo 256. -/
theorem addWrapsModulo256 : Obligations.AddWrapsModulo256 := by
  intro s a b ra rb ha hb
  refine ⟨_, exec_add_of_legal s ha hb, ?_, sameRegistersExcept_writeReg ra _ s, fun _ => rfl, rfl, ⟨rfl, rfl⟩, rfl,
    pcAdvanced_of_pc rfl⟩
  rw [State.advance_reg, State.writeReg_reg_self, BitVec.toNat_ofNat]

/-- Settles O24: the product is written by a register write, which reduces it modulo 256. -/
theorem mulWrapsModulo256 : Obligations.MulWrapsModulo256 := by
  intro s a b ra rb ha hb
  refine ⟨_, exec_mul_of_legal s ha hb, ?_, sameRegistersExcept_writeReg ra _ s, fun _ => rfl, rfl, ⟨rfl, rfl⟩, rfl,
    pcAdvanced_of_pc rfl⟩
  rw [State.advance_reg, State.writeReg_reg_self, BitVec.toNat_ofNat]

/-! ### CMP -/

theorem compareFlags_of_lt {x y : Byte} (h : x.toNat < y.toNat) : compareFlags x y = 4 := by
  rw [compareFlags, if_pos h]

theorem compareFlags_of_gt {x y : Byte} (h : y.toNat < x.toNat) : compareFlags x y = 2 := by
  rw [compareFlags, if_neg (by omega), if_pos h]

theorem compareFlags_self (x : Byte) : compareFlags x x = 1 := by
  rw [compareFlags, if_neg (Nat.lt_irrefl _), if_neg (Nat.lt_irrefl _)]

theorem State.writeFl_less (s : State) (v : Byte) : (s.writeFl v).less = (v &&& flMask).getLsbD 2 := by
  rw [State.less, State.writeFl_readFl]

theorem State.writeFl_greater (s : State) (v : Byte) : (s.writeFl v).greater = (v &&& flMask).getLsbD 1 := by
  rw [State.greater, State.writeFl_readFl]

theorem State.writeFl_equal (s : State) (v : Byte) : (s.writeFl v).equal = (v &&& flMask).getLsbD 0 := by
  rw [State.equal, State.writeFl_readFl]

/-- Settles O25: the compare's flag byte in each of the three orders, and its bits. -/
theorem cmpSetsExactlyOneFlag : Obligations.CmpSetsExactlyOneFlag := by
  intro s a b ra rb ha hb
  refine ⟨_, exec_cmp_of_legal s ha hb, fun hlt => ?_, fun hgt => ?_, fun heq => ?_, sameRegistersExcept_refl [] s,
    fun _ => rfl, ⟨rfl, rfl⟩, rfl, pcAdvanced_of_pc rfl⟩
  · rw [compareFlags_of_lt hlt]
    exact ⟨rfl, (s.writeFl_less 4).trans (by decide), (s.writeFl_greater 4).trans (by decide),
      (s.writeFl_equal 4).trans (by decide)⟩
  · rw [compareFlags_of_gt hgt]
    exact ⟨rfl, (s.writeFl_less 2).trans (by decide), (s.writeFl_greater 2).trans (by decide),
      (s.writeFl_equal 2).trans (by decide)⟩
  · rw [heq, compareFlags_self]
    exact ⟨rfl, (s.writeFl_less 1).trans (by decide), (s.writeFl_greater 1).trans (by decide),
      (s.writeFl_equal 1).trans (by decide)⟩

/-! ### Jumps -/

section
variable {a : Byte} {ra : RegIdx} (s : State)

theorem exec_jmp_of_legal (ha : a.toNat = ra.val) : exec (.jmp a) s = .next (s.jump (s.reg ra)) :=
  exec_of_handler_ok (jmpHandler_ok_iff.2 ⟨ra, ha, rfl⟩)

theorem exec_jeq_of_legal (ha : a.toNat = ra.val) :
    exec (.jeq a) s = .next (if s.equal = true then s.jump (s.reg ra) else s.advance 2) :=
  exec_of_handler_ok (branchHandler_ok_iff.2 ⟨ra, ha, rfl⟩)

theorem exec_jne_of_legal (ha : a.toNat = ra.val) :
    exec (.jne a) s = .next (if (!s.equal) = true then s.jump (s.reg ra) else s.advance 2) :=
  exec_of_handler_ok (branchHandler_ok_iff.2 ⟨ra, ha, rfl⟩)

end

/-- Settles O28: a jump sets PC to the register's byte and nothing else. -/
theorem jmpLoadsPc : Obligations.JmpLoadsPc := fun s _ ra ha =>
  ⟨_, exec_jmp_of_legal s ha, toNat_setWidth_pc (s.reg ra), sameRegistersExcept_refl [] s, fun _ => rfl, rfl,
    ⟨rfl, rfl⟩, rfl⟩

/-- Settles O29: with Equal set the branch is a jump, with Equal clear it advances. -/
theorem jeqJumpsWhenEqual : Obligations.JeqJumpsWhenEqual := by
  intro s a ra ha
  refine ⟨_, exec_jeq_of_legal s ha, ?_⟩
  cases s.equal
  · exact ⟨nofun, fun _ => pcAdvanced_of_pc rfl, sameRegistersExcept_refl [] s, fun _ => rfl, rfl, ⟨rfl, rfl⟩, rfl⟩
  · exact ⟨fun _ => toNat_setWidth_pc (s.reg ra), nofun, sameRegistersExcept_refl [] s, fun _ => rfl, rfl,
      ⟨rfl, rfl⟩, rfl⟩

/-- Settles O30: with Equal clear the branch is a jump, with Equal set it advances. -/
theorem jneJumpsWhenNotEqual : Obligations.JneJumpsWhenNotEqual := by
  intro s a ra ha
  refine ⟨_, exec_jne_of_legal s ha, ?_⟩
  cases s.equal
  · exact ⟨fun _ => toNat_setWidth_pc (s.reg ra), nofun, sameRegistersExcept_refl [] s, fun _ => rfl, rfl,
      ⟨rfl, rfl⟩, rfl⟩
  · exact ⟨nofun, fun _ => pcAdvanced_of_pc rfl, sameRegistersExcept_refl [] s, fun _ => rfl, rfl, ⟨rfl, rfl⟩, rfl⟩

/-- Settles O50: the branch taken lands on the register's value, the other on PC + 2, which is another address. -/
theorem exactlyOneBranchIsTaken : Obligations.ExactlyOneBranchIsTaken := by
  intro s a ra ha hne
  have hjump : (s.jump (s.reg ra)).pc.toNat = (s.reg ra).toNat := toNat_setWidth_pc (s.reg ra)
  have hadvance : (s.advance 2).pc.toNat ≠ (s.reg ra).toNat := fun h =>
    hne (BitVec.eq_of_toNat_eq (h.trans hjump.symm))
  refine ⟨_, _, exec_jeq_of_legal s ha, exec_jne_of_legal s ha, ?_⟩
  cases s.equal
  · exact ⟨fun h => absurd h hadvance, fun h => absurd hjump h⟩
  · exact ⟨fun _ => hadvance, fun _ => hjump⟩

/-! ### Output and HLT -/

section
variable {a : Byte} {ra : RegIdx} (s : State)

theorem exec_prn_of_legal (ha : a.toNat = ra.val) : exec (.prn a) s = .next ((s.emit (.dec (s.reg ra))).advance 2) :=
  exec_of_handler_ok (printHandler_ok_iff.2 ⟨ra, ha, rfl⟩)

theorem exec_pra_of_legal (ha : a.toNat = ra.val) : exec (.pra a) s = .next ((s.emit (.chr (s.reg ra))).advance 2) :=
  exec_of_handler_ok (printHandler_ok_iff.2 ⟨ra, ha, rfl⟩)

theorem exec_hlt : exec .hlt s = .next (s.stop.advance 1) :=
  exec_of_handler_ok (i := .hlt) (hltHandler_ok_iff.2 rfl)

end

/-- Settles O33: each print appends its event and advances. -/
theorem printsEmitTheRegister : Obligations.PrintsEmitTheRegister := fun s _ _ ha =>
  ⟨⟨_, exec_prn_of_legal s ha, rfl, sameRegistersExcept_refl [] s, fun _ => rfl, rfl, ⟨rfl, rfl⟩, pcAdvanced_of_pc rfl⟩,
    ⟨_, exec_pra_of_legal s ha, rfl, sameRegistersExcept_refl [] s, fun _ => rfl, rfl, ⟨rfl, rfl⟩,
      pcAdvanced_of_pc rfl⟩⟩

/-- Settles O34: HLT stops and advances. -/
theorem hltClearsRun : Obligations.HltClearsRun := fun s =>
  ⟨_, exec_hlt s, rfl, rfl, pcAdvanced_of_pc rfl, sameRegistersExcept_refl [] s, fun _ => rfl, rfl, rfl⟩

/-! ### The stack and CALL, RET -/

section
variable {c : Config} {a : Byte} {ra : RegIdx} {s : State}

theorem execWith_push_of_legal (ha : a.toNat = ra.val) (hsp : s.sp ≠ 0) :
    execWith c (.push a) s = .next
      (((s.setSp (s.sp - 1)).storeByte (s.sp - 1).toNat ((s.setSp (s.sp - 1)).reg ra)).advance 2) :=
  execWith_of_handler_ok (pushHandler_ok_iff.2 ⟨ra, ha, hsp, rfl⟩)

theorem execWith_pop_of_legal (ha : a.toNat = ra.val) (hsp : s.sp.toNat + 1 ≤ c.spLimit.toNat) :
    execWith c (.pop a) s = .next (((s.setSp (s.sp + 1)).writeReg ra (s.mem.read s.sp.toNat).toNat).advance 2) :=
  execWith_of_handler_ok (popHandler_ok_iff.2 ⟨ra, ha, hsp, rfl⟩)

theorem execWith_ret (hsp : s.sp.toNat + 1 ≤ c.spLimit.toNat) :
    execWith c .ret s = .next ((s.setSp (s.sp + 1)).jump (s.mem.read s.sp.toNat)) :=
  execWith_of_handler_ok (i := .ret) (retHandler_ok_iff.2 ⟨hsp, rfl⟩)

theorem exec_push_of_legal (ha : a.toNat = ra.val) (hsp : s.sp ≠ 0) :
    exec (.push a) s = .next
      (((s.setSp (s.sp - 1)).storeByte (s.sp - 1).toNat ((s.setSp (s.sp - 1)).reg ra)).advance 2) := by
  rw [exec_eq_execWith, execWith_push_of_legal ha hsp]

theorem exec_pop_of_legal (ha : a.toNat = ra.val) (hsp : s.sp.toNat + 1 ≤ 255) :
    exec (.pop a) s = .next (((s.setSp (s.sp + 1)).writeReg ra (s.mem.read s.sp.toNat).toNat).advance 2) := by
  rw [exec_eq_execWith, execWith_pop_of_legal ha hsp]

theorem exec_ret (hsp : s.sp.toNat + 1 ≤ 255) :
    exec .ret s = .next ((s.setSp (s.sp + 1)).jump (s.mem.read s.sp.toNat)) := by
  rw [exec_eq_execWith, execWith_ret hsp]

theorem exec_call_of_legal (ha : a.toNat = ra.val) (hsp : s.sp ≠ 0) (hpc : s.pc.toNat + 2 ≤ 255) :
    exec (.call a) s = .next
      (((s.setSp (s.sp - 1)).storeByte (s.sp - 1).toNat (BitVec.ofNat 8 (s.pc.toNat + 2))).jump
        ((s.setSp (s.sp - 1)).reg ra)) :=
  exec_of_handler_ok (callHandler_ok_iff.2 ⟨ra, ha, hsp, hpc, rfl⟩)

/-- A store in canonical memory is read back. -/
theorem State.storeByte_read_self (hwf : s.mem.wf = true) (x : Nat) (v : Byte) :
    (s.storeByte x v).mem.read x = v := by
  rw [State.storeByte_mem, Memory.read_write hwf, if_pos rfl]

theorem sameMemoryExcept_storeByte (hwf : s.mem.wf = true) (x : Nat) (v : Byte) :
    SameMemoryExcept x s (s.storeByte x v) := by
  intro y hy
  rw [State.storeByte_mem, Memory.read_write hwf, if_neg hy]

/-- The value popped into a register is the byte read. -/
theorem State.writeReg_reg_toNat (s : State) (r : RegIdx) (b : Byte) : (s.writeReg r b.toNat).reg r = b := by
  rw [State.writeReg_reg_self, BitVec.ofNat_toNat, BitVec.setWidth_eq]

/-- A write to another register leaves SP. -/
theorem State.writeReg_sp_of_ne (s : State) {r : RegIdx} (h : r ≠ 7) (v : Nat) : (s.writeReg r v).sp = s.sp := by
  exact (State.writeReg_reg s r Config.spIndex v).trans (if_neg (Ne.symm h))

theorem sameRegistersExcept_pop (s : State) (r : RegIdx) (v : Byte) (n : Nat) :
    SameRegistersExcept [7, r] s ((s.setSp v).writeReg r n) := by
  intro q hq
  have hqr : q ∉ [r] := List.not_mem_of_not_mem_cons hq
  have hq7 : q ∉ [7] := fun h => List.ne_of_not_mem_cons hq (List.mem_singleton.1 h)
  exact (sameRegistersExcept_writeReg r n _ q hqr).trans (sameRegistersExcept_setSp v s q hq7)

end

/-- Settles O26: the store at SP - 1 in canonical memory, the register read after SP is decremented. -/
theorem pushStoresBelowTheStackTop : Obligations.PushStoresBelowTheStackTop := by
  intro s a ra hwf ha hsp
  have hwf' : (s.setSp (s.sp - 1)).mem.wf = true := hwf
  refine ⟨_, exec_push_of_legal ha hsp, ?_, ?_, sameMemoryExcept_storeByte hwf' _ _, sameRegistersExcept_setSp _ s, rfl,
    ⟨rfl, rfl⟩, rfl, pcAdvanced_of_pc rfl⟩
  · rw [State.advance_sp, State.storeByte_sp, State.setSp_sp, toNat_sub_one hsp]
  · exact (State.storeByte_read_self hwf' _ _).trans (State.setSp_reg s ra _)

/-- Settles O27: the byte at SP is written to the register after SP is incremented. -/
theorem popLoadsTheStackTop : Obligations.PopLoadsTheStackTop := by
  intro s a ra ha hsp
  refine ⟨_, exec_pop_of_legal ha hsp, ?_, fun hra => ?_, sameRegistersExcept_pop s ra _ _, fun _ => rfl, rfl,
    ⟨rfl, rfl⟩, rfl, pcAdvanced_of_pc rfl⟩
  · rw [State.advance_reg, State.writeReg_reg_toNat]
  · rw [State.advance_sp, State.writeReg_sp_of_ne _ hra, State.setSp_sp, toNat_add_one hsp]

/-- Settles O31: the return address is stored at SP - 1, and the target is read after SP is decremented. -/
theorem callPushesTheReturnAddress : Obligations.CallPushesTheReturnAddress := by
  intro s a ra hwf ha hsp hpc
  have hwf' : (s.setSp (s.sp - 1)).mem.wf = true := hwf
  refine ⟨_, exec_call_of_legal ha hsp hpc, ?_, ?_, sameMemoryExcept_storeByte hwf' _ _, ?_,
    sameRegistersExcept_setSp _ s, rfl, ⟨rfl, rfl⟩, rfl⟩
  · rw [State.jump_sp, State.storeByte_sp, State.setSp_sp, toNat_sub_one hsp]
  · rw [State.jump_mem, State.storeByte_read_self hwf', BitVec.toNat_ofNat]
    omega
  · rw [State.jump_pc, toNat_setWidth_pc, State.setSp_reg, ← toNat_sub_one hsp]
    exact apply_ite BitVec.toNat (ra = 7) _ _

/-- Settles O32: the byte at SP becomes PC, and SP is incremented. -/
theorem retPopsIntoPc : Obligations.RetPopsIntoPc := by
  intro s hsp
  refine ⟨_, exec_ret hsp, toNat_setWidth_pc _, ?_, sameRegistersExcept_setSp _ s, fun _ => rfl, rfl, ⟨rfl, rfl⟩, rfl⟩
  rw [State.jump_sp, State.setSp_sp, toNat_add_one hsp]

end Sys2Proof.Machine
end

section
/-! Where instructions trap (40_instruction_cycle.md R87, 60_exceptions.md R165 to R168). -/

namespace Sys2Proof.Machine

/-- Settles O35: the register check is the first of every handler's checks. -/
theorem illegalRegisterTrapsFirst : Obligations.IllegalRegisterTrapsFirst :=
  fun _ _ b h => exec_of_handler_error (handler_error_iff.2 (.inl ⟨b, h, rfl⟩))

/-- A single legal register operand passes the register check. -/
theorem find?_illegal_singleton {a : Byte} (ha : a.toNat ≤ 7) : [a].find? (fun x => decide (7 < x.toNat)) = none := by
  rw [List.find?_cons_of_neg (by simpa using ha), List.find?_nil]

section
variable {limit a : Byte} {s : State}

theorem handler_push_overflow (ha : a.toNat ≤ 7) (hsp : s.sp = 0) :
    handler limit (.push a) s = .error (.stackOverflow 0) :=
  handler_error_iff.2 (.inr ⟨find?_illegal_singleton ha, .inl ⟨.inl rfl, hsp, by rw [hsp]⟩⟩)

theorem handler_call_overflow (ha : a.toNat ≤ 7) (hsp : s.sp = 0) :
    handler limit (.call a) s = .error (.stackOverflow 0) :=
  handler_error_iff.2 (.inr ⟨find?_illegal_singleton ha, .inl ⟨.inr rfl, hsp, by rw [hsp]⟩⟩)

theorem handler_call_no_return_address (ha : a.toNat ≤ 7) (hsp : s.sp ≠ 0) (hpc : 255 < s.pc.toNat + 2) :
    handler limit (.call a) s = .error (.addressOutOfRange (s.pc.toNat + 2)) :=
  handler_error_iff.2 (.inr ⟨find?_illegal_singleton ha, .inr (.inl ⟨rfl, hsp, hpc, rfl⟩)⟩)

theorem handler_pop_underflow (ha : a.toNat ≤ 7) (hsp : limit.toNat ≤ s.sp.toNat) :
    handler limit (.pop a) s = .error (.stackUnderflow s.sp) :=
  handler_error_iff.2 (.inr ⟨find?_illegal_singleton ha, .inr (.inr ⟨.inl rfl, Nat.lt_succ_of_le hsp, rfl⟩)⟩)

theorem handler_ret_underflow (hsp : limit.toNat ≤ s.sp.toNat) :
    handler limit .ret s = .error (.stackUnderflow s.sp) :=
  handler_error_iff.2 (.inr ⟨rfl, .inr (.inr ⟨.inr rfl, Nat.lt_succ_of_le hsp, rfl⟩)⟩)

end

/-- A record that an instruction puts into FAULT is the fault of its handler. -/
theorem handler_error_of_new_record {i : Instr} {s t : State} {r : FaultRecord} (h : exec i s = .next t)
    (hr : t.fault = some r) (hs : s.fault ≠ some r) : handler Config.hw.spLimit i s = .error r.cause := by
  rw [exec_eq_execWith] at h
  obtain hok | ⟨k, herr, rfl⟩ := execWith_eq_next h
  · obtain ⟨hfault, -⟩ := handler_ok_frame hok
    exact absurd (hfault.symm.trans hr) hs
  · obtain rfl := Option.some.inj hr
    exact herr

/-- A handler raises StackOverflow only for PUSH and CALL, with SP = 0. -/
theorem push_or_call_of_overflow {limit : Byte} {i : Instr} {s : State} {k : FaultCause}
    (h : handler limit i s = .error k) (hk : k.kind = .stackOverflow) :
    (i.mnemonic = .push ∨ i.mnemonic = .call) ∧ s.sp = 0 := by
  obtain ⟨_, -, rfl⟩ | ⟨-, ⟨hi, hsp, -⟩ | ⟨-, -, -, rfl⟩ | ⟨-, -, rfl⟩⟩ := handler_error_iff.1 h
  · cases hk
  · exact ⟨hi, hsp⟩
  · cases hk
  · cases hk

/-- A write to R7 is a write to SP. -/
theorem State.writeReg_sp (s : State) (v : Nat) : (s.writeReg 7 v).sp = BitVec.ofNat 8 v := s.writeReg_reg_self 7 v

/-- Settles O36: the overflow check is PUSH's and CALL's alone; the four instructions that may write R7 complete by
their
equations. -/
theorem stackOverflowIsForPushAndCall : Obligations.StackOverflowIsForPushAndCall := by
  refine ⟨fun s a ha hsp => ⟨?_, ?_⟩, fun s imm => ?_, fun s b rb hb => ⟨?_, ?_⟩, fun s hsp => ?_, ?_⟩
  · exact exec_of_handler_error (handler_push_overflow ha hsp)
  · exact exec_of_handler_error (handler_call_overflow ha hsp)
  · refine ⟨_, exec_ldi_of_legal (ra := 7) s imm rfl, ?_, rfl⟩
    rw [State.advance_sp, State.writeReg_sp, BitVec.ofNat_toNat, BitVec.setWidth_eq]
  · refine ⟨_, exec_add_of_legal (ra := 7) s rfl hb, ?_, rfl⟩
    rw [State.advance_sp, State.writeReg_sp, BitVec.ofNat_add, BitVec.ofNat_toNat, BitVec.ofNat_toNat,
      BitVec.setWidth_eq, BitVec.setWidth_eq]
    rfl
  · refine ⟨_, exec_mul_of_legal (ra := 7) s rfl hb, ?_, rfl⟩
    rw [State.advance_sp, State.writeReg_sp, BitVec.ofNat_mul, BitVec.ofNat_toNat, BitVec.ofNat_toNat,
      BitVec.setWidth_eq, BitVec.setWidth_eq]
    rfl
  · refine ⟨_, exec_pop_of_legal (ra := 7) rfl hsp, ?_, rfl⟩
    exact State.writeReg_reg_toNat _ 7 _
  · exact fun i s t r h hr hs hk => push_or_call_of_overflow (handler_error_of_new_record h hr hs) hk

/-- Settles O37: CALL's checks in their order, SP before the return address. -/
theorem callAtTheTopOfMemoryTraps : Obligations.CallAtTheTopOfMemoryTraps := by
  intro s a ha hpc
  refine ⟨fun hsp => ?_, fun hsp => exec_of_handler_error (handler_call_overflow ha hsp)⟩
  have herr := handler_call_no_return_address (limit := Config.hw.spLimit) ha hsp (by omega)
  rw [hpc] at herr
  exact exec_of_handler_error herr

/-- Settles O38: the underflow check compares SP with SP_LIMIT, and SP is incremented only below it. -/
theorem underflowBoundIsSpLimit : Obligations.UnderflowBoundIsSpLimit := by
  refine ⟨fun c s a ra ha => ⟨fun hsp => ?_, fun hsp => ?_⟩, fun s a ha hsp => ?_⟩
  · have hinc : (s.sp + 1).toNat ≤ c.spLimit.toNat := by
      have := c.spLimit.isLt
      rw [toNat_add_one (by omega)]
      exact hsp
    refine ⟨⟨_, execWith_pop_of_legal ha hsp, rfl, fun hra => ?_⟩, ⟨_, execWith_ret hsp, rfl, ?_⟩⟩
    · rwa [State.advance_sp, State.writeReg_sp_of_ne _ hra, State.setSp_sp]
    · rwa [State.jump_sp, State.setSp_sp]
  · have ha7 : a.toNat ≤ 7 := by omega
    exact ⟨execWith_of_handler_error (handler_pop_underflow ha7 hsp),
      execWith_of_handler_error (handler_ret_underflow hsp)⟩
  · have hle : Config.hw.spLimit.toNat ≤ s.sp.toNat := by rw [hsp]; decide
    rw [← hsp]
    exact ⟨exec_of_handler_error (handler_pop_underflow ha hle), exec_of_handler_error (handler_ret_underflow hle)⟩

/-- Settles O13: an instruction leaves FAULT as it was or its state is the raise of the state before it. -/
theorem faultsArePrecise : Obligations.FaultsArePrecise := by
  intro i s t h
  obtain hkeep | ⟨k, rfl⟩ := exec_fault_eq_or_exists_raise h
  · exact .inl hkeep
  · exact .inr ⟨k, rfl, rfl, rfl, fun _ => rfl, rfl, rfl, rfl⟩

/-- Settles O43: a completed handler writes the table's registers only, and a fault writes none. -/
theorem registersWrittenAreTheTables : Obligations.RegistersWrittenAreTheTables := by
  intro i s t q h hq
  rw [exec_eq_execWith] at h
  obtain hok | ⟨k, -, rfl⟩ := execWith_eq_next h
  · obtain ⟨-, -, -, hregs, -⟩ := handler_ok_frame hok
    exact hregs q hq
  · rfl

end Sys2Proof.Machine
end

section
/-! What one step does: it runs the instruction whose bytes stand at PC, or takes a fault (40_instruction_cycle.md
R80 to
R85). -/

namespace Sys2Proof.Machine

/-- The cells from PC hold the bytes exactly when a fetch yields them. -/
theorem State.holds_iff_yields {s : State} {bytes : List Byte} : s.Holds bytes ↔ Yields s.fetchByte bytes := by
  refine forall₂_congr fun k hk => ?_
  by_cases hle : s.pc.toNat + k ≤ 255
  · simp [fetchByte_of_le hle, hle, List.getElem?_eq_getElem hk]
  · simp [fetchByte_of_gt (Nat.lt_of_not_le hle), hle, List.getElem?_eq_getElem hk]

/-- Where the opcode bytes are distinct, the instruction whose encoding stands at PC is the one decoded. -/
theorem decodeFrom_iff_holds {m : OpcodeMap} (hm : Function.Injective m) {s : State} {i : Instr} :
    decodeFrom m s.fetchByte = .ok i ↔ s.Holds (encodeWith m i) :=
  ⟨fun h => State.holds_iff_yields.2 (yields_of_decodeFrom h),
    fun h => decodeFrom_of_yields hm (State.holds_iff_yields.1 h)⟩

theorem stepWith_of_decodeFrom_ok {c : Config} {s : State} {i : Instr} (hrun : s.run = true)
    (h : decodeFrom c.opcodeMap s.fetchByte = .ok i) : stepWith c s = execWith c i s := by
  simp only [stepWith, fetch, hrun, h, if_true]

theorem stepWith_of_decodeFrom_error {c : Config} {s : State} {e : DecodeError} (hrun : s.run = true)
    (h : decodeFrom c.opcodeMap s.fetchByte = .error e) :
    stepWith c s = .next (raise (fetchFault s.pc e).1 (fetchFault s.pc e).2 s) := by
  simp only [stepWith, fetch, hrun, h, if_true]

/-- A step is the instruction whose encoding stands at PC. -/
theorem step_of_holds {s : State} {i : Instr} (hrun : s.run = true) (h : s.Holds (encode i)) : step s = exec i s := by
  rw [step_eq_stepWith, exec_eq_execWith,
    stepWith_of_decodeFrom_ok hrun ((decodeFrom_iff_holds Config.hw_admissible.1).2 h)]

theorem State.Holds.of_append {s : State} {bytes rest : List Byte} (h : s.Holds (bytes ++ rest)) : s.Holds bytes := by
  intro k hk
  obtain ⟨hle, hread⟩ := h k (by rw [List.length_append]; omega)
  exact ⟨hle, hread.trans (List.getElem_append_left hk)⟩

/-- Settles O6: bytes that decode begin with the encoding, so the cells from PC hold it. -/
theorem stepRunsTheDecodedInstruction : Obligations.StepRunsTheDecodedInstruction := by
  intro s bytes rest i hrun hholds hdecode
  rw [eq_encodeWith_append_of_decodeWith hdecode] at hholds
  exact step_of_holds hrun hholds.of_append

/-- Bytes placed in canonical memory stand at PC. -/
theorem State.placeAtPc_holds {s : State} {bytes : List Byte} (hwf : s.mem.wf = true)
    (hle : s.pc.toNat + bytes.length ≤ Config.memSize) : (s.placeAtPc bytes).Holds bytes := by
  have hsize : Config.memSize = 256 := rfl
  refine fun k hk => ⟨by show s.pc.toNat + k ≤ 255; omega, ?_⟩
  refine (Memory.read_writeBytes bytes s.pc.toNat _ hwf hle).trans ?_
  rw [dif_pos (by show s.pc.toNat ≤ s.pc.toNat + k ∧ s.pc.toNat + k < _; omega)]
  congr 1
  exact Nat.add_sub_cancel_left s.pc.toNat k

/-- Settles O7: the three bytes placed stand at PC, and the step runs what they decode to. -/
theorem placedWordRunsNext : Obligations.PlacedWordRunsNext := by
  intro s nbits w i hwf hpc hword
  have hholds : (s.withFetchWord nbits w).Holds (tableBytes nbits w) :=
    State.placeAtPc_holds hwf (by simp [tableBytes, Config.memSize]; omega)
  unfold decodeTableWord at hword
  split at hword
  · next j rest hdecode =>
      obtain rfl := Option.some.inj hword
      exact stepRunsTheDecodedInstruction _ _ rest j rfl hholds hdecode
  · cases hword

end Sys2Proof.Machine
end

section
/-! What a step can have done, and what follows for RUN, memory, the output and the FAULT record. -/

namespace Sys2Proof.Machine

/-- A step either completes the instruction at PC or raises a fault from the state it starts in. -/
theorem stepWith_completes_or_raises {c : Config} {s t : State} (h : stepWith c s = .next t) :
    (∃ i, decodeFrom c.opcodeMap s.fetchByte = .ok i ∧ handler c.spLimit i s = .ok t) ∨ ∃ k op, t = raise k op s := by
  obtain ⟨-, ⟨i, hi, hexec⟩ | ⟨e, -, rfl⟩⟩ := stepWith_eq_next h
  · obtain hok | ⟨k, -, rfl⟩ := execWith_eq_next hexec
    · exact .inl ⟨i, hi, hok⟩
    · exact .inr ⟨k, _, rfl⟩
  · exact .inr ⟨_, _, rfl⟩

theorem step_completes_or_raises {s t : State} (h : step s = .next t) :
    (∃ i, decodeFrom Config.hw.opcodeMap s.fetchByte = .ok i ∧ handler Config.hw.spLimit i s = .ok t) ∨
      ∃ k op, t = raise k op s :=
  stepWith_completes_or_raises (step_eq_stepWith s ▸ h)

theorem run_of_step {s t : State} (h : step s = .next t) : s.run = true :=
  (stepWith_eq_next (step_eq_stepWith s ▸ h)).1

/-- An instruction has a next state from every state. -/
theorem exists_execWith_eq_next (c : Config) (i : Instr) (s : State) : ∃ t, execWith c i s = .next t := by
  cases h : handler c.spLimit i s with
  | ok t => exact ⟨t, execWith_of_handler_ok h⟩
  | error k => exact ⟨_, execWith_of_handler_error h⟩

/-- A running state has a next state. -/
theorem exists_step_eq_next {s : State} (hrun : s.run = true) : ∃ t, step s = .next t := by
  rw [step_eq_stepWith]
  cases h : decodeFrom Config.hw.opcodeMap s.fetchByte with
  | ok i =>
    rw [stepWith_of_decodeFrom_ok hrun h]
    exact exists_execWith_eq_next _ i s
  | error e => exact ⟨_, stepWith_of_decodeFrom_error hrun h⟩

/-! ### RUN -/

/-- RUN is left as it was but by HLT and by a fault. -/
theorem exec_run {i : Instr} {s t : State} (h : exec i s = .next t) :
    t.run = s.run ∨ (i = .hlt ∧ t = s.stop.advance 1) ∨ ∃ k op, t = raise k op s := by
  rw [exec_eq_execWith] at h
  obtain hok | ⟨k, -, rfl⟩ := execWith_eq_next h
  · obtain ⟨-, hkeep | rfl, -⟩ := handler_ok_frame hok
    · exact .inl hkeep
    · exact .inr (.inl ⟨rfl, hltHandler_ok_iff.1 hok⟩)
  · exact .inr (.inr ⟨k, _, rfl⟩)

/-- Settles O10: RUN is cleared by HLT and by a fault alone, and no instruction sets it. -/
theorem runIsClearedByHltAndFaults : Obligations.RunIsClearedByHltAndFaults := by
  refine ⟨rfl, fun s t => run_of_step, fun s hrun => ⟨_, step_of_run_eq_false hrun⟩, fun s => ⟨_, exec_hlt s, rfl⟩,
    fun _ _ _ => rfl, fun i s t h hrun => ?_, fun i s t h hrun hstop => ?_, fun _ => rfl⟩
  · obtain hkeep | ⟨-, rfl⟩ | ⟨k, op, rfl⟩ := exec_run h
    · exact hkeep.trans hrun
    · rfl
    · rfl
  · obtain hkeep | ⟨hi, -⟩ | hraise := exec_run h
    · rw [hkeep, hrun] at hstop
      cases hstop
    · exact .inl hi
    · exact .inr hraise

/-- HLT at PC: the step stops and advances. -/
theorem step_of_holds_hlt {s : State} (hrun : s.run = true) (h : s.Holds (encode .hlt)) :
    step s = .next (s.stop.advance 1) := by
  rw [step_of_holds hrun h, exec_hlt]

/-- A step that stops ran an HLT or raised a fault. -/
theorem hlt_or_raise_of_step_stops {s t : State} (h : step s = .next t) (hstop : t.run = false) :
    (s.Holds (encode .hlt) ∧ t = s.stop.advance 1) ∨ ∃ k op, t = raise k op s := by
  obtain ⟨i, hi, hok⟩ | hraise := step_completes_or_raises h
  · obtain hkeep | ⟨rfl, ht⟩ | hraise := exec_run (exec_of_handler_ok hok)
    · rw [hkeep, run_of_step h] at hstop
      cases hstop
    · exact .inl ⟨(decodeFrom_iff_holds Config.hw_admissible.1).1 hi, ht⟩
    · exact .inr hraise
  · exact .inr hraise

/-- Settles O11: a step exists exactly while RUN is true, and one that clears RUN ran an HLT or raised a fault. -/
theorem loopEndsOnlyByHltOrFault : Obligations.LoopEndsOnlyByHltOrFault := by
  refine ⟨fun s hrun t h => ?_, fun s => exists_step_eq_next, fun s hrun hhlt => ?_,
    fun s t => hlt_or_raise_of_step_stops⟩
  · rw [step_of_run_eq_false hrun] at h
    cases h
  · exact ⟨_, step_of_holds_hlt hrun hhlt, rfl, rfl, pcAdvanced_of_pc rfl⟩

/-! ### Memory and the output -/

/-- Settles O40: of the completed instructions PUSH and CALL alone write memory, one cell at SP - 1, and their opcode
byte
stands at PC. -/
theorem onlyPushAndCallWriteMemory : Obligations.OnlyPushAndCallWriteMemory := by
  intro s t a hwf h hchanged
  obtain ⟨i, hi, hok⟩ | ⟨k, op, rfl⟩ := step_completes_or_raises h
  · obtain ⟨hopcode, -, -⟩ := decodeFrom_ok hi
    obtain ⟨-, -, -, -, hsame | ⟨hmnemonic, hsp, v, hwrite⟩, -⟩ := handler_ok_frame hok
    · exact absurd (by rw [hsame]) hchanged
    · rw [hwrite, Memory.read_write hwf] at hchanged
      refine ⟨by_contra fun hne => hchanged (if_neg hne), hsp, ?_⟩
      rw [hopcode]
      exact hmnemonic.imp (congrArg _) (congrArg _)
  · exact absurd rfl hchanged

/-- Settles O41: of the completed instructions PRN and PRA alone append to OUT, and their opcode byte stands at PC. -/
theorem onlyPrintsExtendTheOutput : Obligations.OnlyPrintsExtendTheOutput := by
  intro s t h
  obtain ⟨i, hi, hok⟩ | ⟨k, op, rfl⟩ := step_completes_or_raises h
  · obtain ⟨hopcode, -, -⟩ := decodeFrom_ok hi
    obtain ⟨-, -, -, -, -, hsame | ⟨v, hdec, hprn⟩ | ⟨v, hchr, hpra⟩, -⟩ := handler_ok_frame hok
    · exact .inl hsame
    · exact .inr (.inl ⟨v, hdec, by rw [hopcode, hprn]⟩)
    · exact .inr (.inr ⟨v, hchr, by rw [hopcode, hpra]⟩)
  · exact .inl rfl

/-- Settles O51: PUSH leaves PC past its two bytes and memory with one byte written, which a fetch reads. -/
theorem pushedByteIsFetchedNext : Obligations.PushedByteIsFetchedNext := by
  intro s a ra hwf hrun hholds ha hra hsp
  refine ⟨_, (step_of_holds hrun hholds).trans (exec_push_of_legal ha hsp), fun k hk => ?_⟩
  obtain ⟨hoperand, -⟩ := hholds 1 Nat.one_lt_two
  have hpc : (s.pc + BitVec.ofNat 9 2).toNat = s.pc.toNat + 2 :=
    (pcAdvanced_of_pc (t := s.advance 2) rfl).2 (by omega)
  have hvalue : (s.setSp (s.sp - 1)).reg ra = s.reg ra := (s.setSp_reg ra _).trans (if_neg hra)
  rw [fetchByte_of_le hk]
  simp only [State.advance_pc, State.storeByte_pc, State.setSp_pc, State.advance_mem, State.storeByte_mem,
    State.setSp_mem, hpc, hvalue, Memory.read_write hwf, toNat_sub_one hsp]

/-! ### Faults of the step -/

/-- A failed decode raises its fetch fault. -/
theorem step_of_decodeFrom_error {s : State} {e : DecodeError} (hrun : s.run = true)
    (h : decodeFrom defaultOpcodeMap s.fetchByte = .error e) :
    step s = .next (raise (fetchFault s.pc e).1 (fetchFault s.pc e).2 s) := by
  rw [step_eq_stepWith]
  exact stepWith_of_decodeFrom_error hrun h

/-- A known opcode with an operand byte beyond 255 is not decoded: the first such byte is missing. -/
theorem decodeFrom_missing {m : OpcodeMap} (hm : Function.Injective m) {s : State} {x : Mnemonic}
    (hpc : s.pc.toNat ≤ 255) (hread : s.mem.read s.pc.toNat = m x) (hx : 255 < s.pc.toNat + x.opcount) :
    decodeFrom m s.fetchByte = .error (.missingOperand (m x) (256 - s.pc.toNat)) := by
  cases h : decodeFrom m s.fetchByte with
  | ok i =>
    obtain ⟨hopcode, hle, -⟩ := decodeFrom_ok h
    rw [hread] at hopcode
    rw [← hm hopcode] at hle
    omega
  | error e =>
    obtain ⟨-, hgt⟩ | ⟨op, -, -, hop, hnone⟩ | ⟨y, rfl, h255, hy, -⟩ | ⟨y, rfl, h254, hy, -⟩ := decodeFrom_error h
    · omega
    · exact absurd (hread.symm.trans hop) (OpcodeMap.lookup_eq_none.1 hnone x)
    · rw [h255, ← hy, hread]
    · rw [h254, ← hy, hread]

/-- Settles O8: the three ways a decode at PC fails, each with its fault. -/
theorem fetchFaultsAreTaken : Obligations.FetchFaultsAreTaken := by
  refine ⟨fun s hrun hpc => ?_, fun s op hrun hpc hread hop => ?_, fun s x hrun hpc hread hx => ?_⟩
  · have hdecode : decodeFrom defaultOpcodeMap s.fetchByte = .error .noOpcode := by
      rw [decodeFrom, fetchByte_of_gt (by omega)]
    rw [step_of_decodeFrom_error hrun hdecode, fetchFault, hpc]
  · have hbyte : s.fetchByte 0 = some op := (fetchByte_of_le hpc).trans (congrArg some hread)
    have hdecode : decodeFrom defaultOpcodeMap s.fetchByte = .error (.unknownOpcode op) :=
      (decodeFrom_unknownOpcode_iff hbyte).2 (OpcodeMap.lookup_eq_none.2 hop)
    rw [step_of_decodeFrom_error hrun hdecode, fetchFault]
  · have hdecode := decodeFrom_missing defaultOpcodeMap_injective hpc hread hx
    have haddress : s.pc.toNat + (256 - s.pc.toNat) = 256 := by omega
    rw [step_of_decodeFrom_error hrun hdecode, fetchFault, haddress]
    rfl

/-- No handler raises UnsupportedALUOperation: ADD and MUL select operations the ALU has. -/
theorem handler_error_kind_ne {limit : Byte} {i : Instr} {s : State} {k : FaultCause}
    (h : handler limit i s = .error k) : k.kind ≠ .unsupportedALUOperation := by
  obtain ⟨_, -, rfl⟩ | ⟨-, ⟨-, -, rfl⟩ | ⟨-, -, -, rfl⟩ | ⟨-, -, rfl⟩⟩ := handler_error_iff.1 h <;> exact nofun

/-- Settles O45: neither a handler nor a fetch raises it. -/
theorem unsupportedAluOperationIsNeverRaised : Obligations.UnsupportedAluOperationIsNeverRaised := by
  refine ⟨fun _ _ _ => rfl, fun s t r h hr hs => ?_⟩
  rw [step_eq_stepWith] at h
  obtain ⟨-, ⟨i, -, hexec⟩ | ⟨e, -, rfl⟩⟩ := stepWith_eq_next h
  · rw [← exec_eq_execWith] at hexec
    exact handler_error_kind_ne (handler_error_of_new_record hexec hr hs)
  · obtain rfl := Option.some.inj hr
    cases e <;> exact nofun

/-- Settles O19: memory that holds 0 everywhere has 0x00 at PC, which is no opcode. -/
theorem emptyImageFaultsAtZero : Obligations.EmptyImageFaultsAtZero := by
  obtain ⟨-, hunknown, -⟩ := fetchFaultsAreTaken
  exact ⟨rfl, hunknown State.reset 0x00 rfl (Nat.zero_le _) rfl fun x => by cases x <;> decide⟩

end Sys2Proof.Machine
end

section
/-! The invariant: it holds at reset and every step keeps it (10_state.md R18, R24, R26); and how a run ends (R33). -/

namespace Sys2Proof.Machine

/-- Settles O16, by evaluating the fields of the reset state, which carries no record. -/
theorem resetMeetsTheInvariant : Obligations.ResetMeetsTheInvariant :=
  fun _ => ⟨rfl, Nat.zero_le 256, rfl, nofun⟩

theorem flLegal_compareFlags (x y : Byte) : flLegal (compareFlags x y &&& flMask) = true := by
  unfold compareFlags
  split
  · rfl
  · split <;> rfl

/-- A completed instruction leaves FL or writes a compare's flags. -/
theorem handler_ok_fl {limit : Byte} {i : Instr} {s t : State} (h : handler limit i s = .ok t) :
    t.fl = s.fl ∨ ∃ x y, t.fl = compareFlags x y &&& flMask := by
  by_cases hi : i.mnemonic = .cmp
  · obtain ⟨a, b, rfl⟩ : ∃ a b, i = .cmp a b := by
      cases i with
      | cmp a b => exact ⟨a, b, rfl⟩
      | _ => cases hi
    obtain ⟨ra, rb, -, -, rfl⟩ := cmpHandler_ok_iff.1 h
    exact .inr ⟨_, _, rfl⟩
  · obtain ⟨-, -, hfl, -⟩ := handler_ok_frame h
    exact .inl (hfl hi)

section
variable {c : Config} {i : Instr} {s t : State} {k : FaultCause}

/-- A running state that meets the invariant carries no record. -/
theorem State.Inv.fault_eq_none (hinv : s.Inv c) (hrun : s.run = true) : s.fault = none := by
  by_contra hne
  obtain ⟨r, hr⟩ := Option.ne_none_iff_exists'.1 hne
  rw [hinv.run_eq_false_of_fault_eq_some hr] at hrun
  cases hrun

/-- An instruction whose bytes all lie below 256 keeps the invariant where it completes. -/
theorem State.Inv.of_handler_ok (hinv : s.Inv c) (hrun : s.run = true) (hle : s.pc.toNat + i.mnemonic.opcount ≤ 255)
    (h : handler c.spLimit i s = .ok t) : t.Inv c := by
  obtain ⟨hfault, -, -, -, hmem, -, hpc⟩ := handler_ok_frame h
  refine ⟨?_, ?_, ?_, fun r hr => ?_⟩
  · obtain hsame | ⟨-, -, v, hwrite⟩ := hmem
    · rw [hsame, hinv.mem_wf]
    · rw [hwrite]
      exact Memory.wf_write v hinv.mem_wf (s.sp - 1).isLt
  · obtain hnext | ⟨hjump, -⟩ := hpc
    · have hlength : s.pc.toNat + i.length ≤ 256 := by rw [Instr.length]; omega
      rw [(pcAdvanced_of_pc hnext).2 hlength]
      exact hlength
    · omega
  · obtain hsame | ⟨x, y, hcmp⟩ := handler_ok_fl h
    · rw [hsame, hinv.fl_legal]
    · rw [hcmp, flLegal_compareFlags]
  · rw [hfault, hinv.fault_eq_none hrun] at hr
    cases hr

/-- An instruction has as many register operands as its row declares. -/
theorem length_registerOperands (i : Instr) : i.registerOperands.length = i.mnemonic.registerCount := by
  cases i <;> rfl

/-- The fault of a decoded instruction's handler gives a sound record. -/
theorem sound_of_handler_error (hle : s.pc.toNat + i.mnemonic.opcount ≤ 255) (h : handler c.spLimit i s = .error k) :
    FaultRecord.Sound c (raise k (some (c.opcodeMap i.mnemonic)) s) ⟨k, s.pc, some (c.opcodeMap i.mnemonic)⟩ := by
  refine ⟨rfl, rfl, ?_⟩
  obtain ⟨b, hb, rfl⟩ | ⟨-, ⟨hi, hsp, rfl⟩ | ⟨hi, -, hpc, rfl⟩ | ⟨hi, hsp, rfl⟩⟩ := handler_error_iff.1 h
  · have hpos : 0 < i.mnemonic.registerCount := by
      rw [← length_registerOperands]
      exact List.length_pos_of_mem (List.mem_of_find?_eq_some hb)
    exact ⟨by simpa using List.find?_some hb, _, hpos, rfl⟩
  · exact ⟨hsp, hsp, _, hi, rfl⟩
  · rw [hi] at hle
    have hpc254 : s.pc.toNat + 1 ≤ 255 := hle
    exact ⟨by omega, .inr ⟨by rw [raise_pc]; omega, _, by rw [hi]; decide, rfl⟩⟩
  · exact ⟨rfl, hsp, _, hi, rfl⟩

/-- The fault of a failed decode gives a sound record, PC being at most 256. -/
theorem sound_of_decodeFrom_error {e : DecodeError} (hpc : s.pc.toNat ≤ 256)
    (h : decodeFrom c.opcodeMap s.fetchByte = .error e) :
    FaultRecord.Sound c (raise (fetchFault s.pc e).1 (fetchFault s.pc e).2 s)
      ⟨(fetchFault s.pc e).1, s.pc, (fetchFault s.pc e).2⟩ := by
  refine ⟨rfl, rfl, ?_⟩
  obtain ⟨rfl, hgt⟩ | ⟨op, rfl, -, -, hnone⟩ | ⟨x, rfl, h255, -, -, hx⟩ | ⟨x, rfl, h254, -, -, hx⟩ := decodeFrom_error h
  · have h256 : s.pc.toNat = 256 := by omega
    exact ⟨h256, .inl ⟨h256, rfl⟩⟩
  · exact ⟨rfl, OpcodeMap.lookup_eq_none.1 hnone⟩
  · exact ⟨by omega, .inr ⟨by rw [raise_pc]; omega, x, hx, rfl⟩⟩
  · exact ⟨by omega, .inr ⟨by rw [raise_pc]; omega, x, by omega, rfl⟩⟩

/-- Raising a fault keeps the invariant where the record is sound. -/
theorem State.Inv.of_raise {op : Option Byte} (hinv : s.Inv c)
    (hsound : FaultRecord.Sound c (raise k op s) ⟨k, s.pc, op⟩) :
    (raise k op s).Inv c := by
  refine ⟨hinv.mem_wf, hinv.pc_le, hinv.fl_legal, fun r hr => ?_⟩
  obtain rfl := Option.some.inj hr
  exact hsound

theorem State.Inv.of_stepWith (hinv : s.Inv c) (h : stepWith c s = .next t) : t.Inv c := by
  obtain ⟨hrun, ⟨i, hi, hexec⟩ | ⟨e, he, rfl⟩⟩ := stepWith_eq_next h
  · obtain ⟨-, hle, -⟩ := decodeFrom_ok hi
    obtain hok | ⟨k, herr, rfl⟩ := execWith_eq_next hexec
    · exact hinv.of_handler_ok hrun hle hok
    · exact hinv.of_raise (sound_of_handler_error hle herr)
  · exact hinv.of_raise (sound_of_decodeFrom_error hinv.pc_le he)

end

/-- Settles O17: a step completes a decoded instruction, whose writes keep each clause, or raises a sound fault. -/
theorem stepKeepsTheInvariant : Obligations.StepKeepsTheInvariant :=
  ⟨fun s _ hinv h => hinv.of_stepWith (step_eq_stepWith s ▸ h), fun _ _ _ => State.Inv.of_stepWith⟩

/-! ### The end of a run -/

theorem State.status_eq_halted_iff {s : State} : s.status = .halted ↔ s.run = false ∧ s.fault = none := by
  unfold State.status
  cases s.run <;> cases s.fault <;> simp

theorem State.status_eq_faulted_iff {s : State} : s.status = .faulted ↔ s.run = false ∧ s.fault ≠ none := by
  unfold State.status
  cases s.run <;> cases s.fault <;> simp

theorem State.status_eq_running_iff {s : State} : s.status = .running ↔ s.run = true := by
  unfold State.status
  cases s.run <;> cases s.fault <;> simp

/-- Settles O54: under the invariant the first state is without a record, so the next one carries one exactly when it
was
raised, and the only other way to stop is HLT. -/
theorem runEndsHaltedOrFaulted : Obligations.RunEndsHaltedOrFaulted := by
  intro s t hinv h
  have hrun := run_of_step h
  have hnone := hinv.fault_eq_none hrun
  have hinv' : t.Inv Config.hw := hinv.of_stepWith (step_eq_stepWith s ▸ h)
  refine ⟨State.status_eq_running_iff.2 hrun, ⟨fun hhalted => ?_, fun hhlt => ?_⟩,
    ⟨fun hfaulted => ?_, fun hfault => ?_⟩, fun hhalted => ?_, fun hfaulted => ?_⟩
  · obtain ⟨hstop, hclear⟩ := State.status_eq_halted_iff.1 hhalted
    obtain ⟨hhlt, -⟩ | ⟨k, op, rfl⟩ := hlt_or_raise_of_step_stops h hstop
    · exact hhlt
    · cases hclear
  · rw [step_of_holds_hlt hrun hhlt] at h
    obtain rfl := Host.Outcome.next.inj h
    exact State.status_eq_halted_iff.2 ⟨rfl, hnone⟩
  · exact (State.status_eq_faulted_iff.1 hfaulted).2
  · obtain ⟨r, hr⟩ := Option.ne_none_iff_exists'.1 hfault
    exact State.status_eq_faulted_iff.2 ⟨hinv'.run_eq_false_of_fault_eq_some hr, hfault⟩
  · rw [State.exitStatusZero, hhalted]
  · rw [State.exitStatusZero, hfaulted]

end Sys2Proof.Machine
end

section
/-! The order of fault checks: a step takes the first fault of the table (40_instruction_cycle.md R87). -/

namespace Sys2Proof.Machine

/-- The first check that holds: the one at the head of the table, or the first of the others. -/
theorem firstCheck_cons (p : Prop) [Decidable p] (f : FaultCause × Option Byte)
    (l : List (Bool × FaultCause × Option Byte)) :
    (((decide p, f) :: l).find? (·.1)).map (·.2) = if p then some f else (l.find? (·.1)).map (·.2) := by
  by_cases h : p <;> simp [h]

theorem State.Holds.read {s : State} {bytes : List Byte} (h : s.Holds bytes) {k : Nat} {b : Byte}
    (hb : bytes[k]? = some b) : s.mem.read (s.pc.toNat + k) = b := by
  obtain ⟨hk, hget⟩ := List.getElem?_eq_some_iff.1 hb
  rw [(h k hk).2, hget]

/-- The register operands of the instruction at PC are the cells after the opcode byte. -/
theorem registerOperands_of_holds {m : OpcodeMap} {s : State} {i : Instr} (h : s.Holds (encodeWith m i)) :
    i.registerOperands =
      [s.mem.read (s.pc.toNat + 1), s.mem.read (s.pc.toNat + 2)].take i.mnemonic.registerCount := by
  cases i with
  | hlt | ret => rfl
  | push a | pop a | prn a | pra a | call a | jmp a | jeq a | jne a | ldi a _ =>
    rw [h.read (k := 1) (b := a) rfl]
    rfl
  | add a b | mul a b | cmp a b =>
    rw [h.read (k := 1) (b := a) rfl, h.read (k := 2) (b := b) rfl]
    rfl

/-- The first illegal one of at most two operand bytes: the first, or else the second. -/
theorem find?_illegal_take {a b : Byte} {n : Nat} (hn : n ≤ 2) :
    ([a, b].take n).find? (fun x => decide (7 < x.toNat)) =
      if 1 ≤ n ∧ 7 < a.toNat then some a else if n = 2 ∧ 7 < b.toNat then some b else none := by
  match n, hn with
  | 0, _ => rfl
  | 1, _ => by_cases ha : 7 < a.toNat <;> simp [ha]
  | 2, _ => by_cases ha : 7 < a.toNat <;> by_cases hb : 7 < b.toNat <;> simp [ha, hb]

theorem registerCount_le_two (x : Mnemonic) : x.registerCount ≤ 2 := by
  cases x <;> decide

section
variable {c : Config} {i : Instr} {s t : State}

/-- Where the decode at PC fails, the first check that holds is that of its fault. -/
theorem firstFault_of_decodeFrom_error {e : DecodeError} (h : decodeFrom c.opcodeMap s.fetchByte = .error e) :
    firstFault c s = some (fetchFault s.pc e) := by
  simp only [firstFault, faultChecks, firstCheck_cons]
  obtain ⟨rfl, hgt⟩ | ⟨op, rfl, hle, rfl, hnone⟩ | ⟨x, rfl, h255, hread, hrow, hx⟩ | ⟨x, rfl, h254, hread, hrow, hx⟩ :=
    decodeFrom_error h
  · simp [fetchFault, hgt]
  · simp [fetchFault, Nat.not_lt.2 hle, hnone]
  · simp [fetchFault, h255, h255 ▸ hread, hrow, hx]
  · simp [fetchFault, h254, h254 ▸ hread, hrow, hx]

/-- Where an instruction is decoded at PC, the first check that holds is the fault of its handler. -/
theorem firstFault_eq_some_iff_of_decodeFrom_ok (h : decodeFrom c.opcodeMap s.fetchByte = .ok i)
    {f : FaultCause × Option Byte} :
    firstFault c s = some f ↔
      ∃ k, handler c.spLimit i s = .error k ∧ (k, some (c.opcodeMap i.mnemonic)) = f := by
  obtain ⟨hread, hle, hholds⟩ := decodeFrom_ok h
  have hrow : c.opcodeMap.lookup (c.opcodeMap i.mnemonic) = some i.mnemonic := by
    obtain ⟨op, -, hrow⟩ := lookup_of_decodeFrom h
    rwa [OpcodeMap.of_lookup hrow]
  have hpc : ¬ 255 < s.pc.toNat := by omega
  have hoperand (n : Nat) : ¬ (n ≤ i.mnemonic.opcount ∧ 255 < s.pc.toNat + n) := by omega
  simp only [handler_error_iff, registerOperands_of_holds hholds, find?_illegal_take (registerCount_le_two _)]
  simp only [firstFault, faultChecks, firstCheck_cons, hread, hrow, Option.map_some, Option.getD_some]
  rw [if_neg hpc, if_neg (Option.some_ne_none _), if_neg (hoperand 1), if_neg (by omega)]
  by_cases ha : 1 ≤ i.mnemonic.registerCount ∧ 7 < (s.mem.read (s.pc.toNat + 1)).toNat
  · simp [ha]
  by_cases hb : i.mnemonic.registerCount = 2 ∧ 7 < (s.mem.read (s.pc.toNat + 2)).toNat
  · simp only [if_neg ha, if_pos hb]
    simp
  simp only [if_neg ha, if_neg hb]
  generalize i.mnemonic = x
  cases x with
  | push => by_cases hsp : s.sp = 0#8 <;> simp [hsp]
  | call =>
    by_cases hsp : s.sp = 0#8
    · simp [hsp]
    · by_cases hret : 255 < s.pc.toNat + 2 <;> simp [hsp, hret]
  | pop | ret => by_cases hsp : c.spLimit.toNat < s.sp.toNat + 1 <;> simp [hsp]
  | _ => simp

end

/-- Settles O9: the first check that holds is the fault of the fetch or of the decoded instruction's handler, and
where none
holds the handler completes. -/
theorem stepTakesTheFirstFaultInOrder : Obligations.StepTakesTheFirstFaultInOrder := by
  intro c s hrun _
  cases hdecode : decodeFrom c.opcodeMap s.fetchByte with
  | error e =>
    rw [firstFault_of_decodeFrom_error hdecode, stepWith_of_decodeFrom_error hrun hdecode]
    exact ⟨fun f hf => by rw [Option.some.inj hf], nofun⟩
  | ok i =>
    obtain ⟨-, -, hholds⟩ := decodeFrom_ok hdecode
    rw [stepWith_of_decodeFrom_ok hrun hdecode]
    refine ⟨fun f hf => ?_, fun hclear => ?_⟩
    · obtain ⟨k, herr, rfl⟩ := (firstFault_eq_some_iff_of_decodeFrom_ok hdecode).1 hf
      exact execWith_of_handler_error herr
    · cases hhandler : handler c.spLimit i s with
      | error k =>
        rw [(firstFault_eq_some_iff_of_decodeFrom_ok hdecode).2 ⟨k, hhandler, rfl⟩] at hclear
        cases hclear
      | ok t =>
        obtain ⟨hfault, -, -, -, -, -, hpc⟩ := handler_ok_frame hhandler
        exact ⟨i, t, hholds, execWith_of_handler_ok hhandler, hfault, hpc.imp_left pcAdvanced_of_pc⟩

end Sys2Proof.Machine
end

section
/-! What does not influence a run: the output stream (10_state.md R28), and a register outside the table of R17. -/

namespace Sys2Proof.Machine

/-! ### The output stream -/

@[simp] theorem State.withOut_pc (s : State) (es : List OutEvent) : (s.withOut es).pc = s.pc := rfl
@[simp] theorem State.withOut_sp (s : State) (es : List OutEvent) : (s.withOut es).sp = s.sp := rfl

/-- A handler that completes without a print does so whatever OUT holds, to the same effect. -/
theorem handler_withOut_of_silent {limit : Byte} {i : Instr} {s t : State} (hprn : i.mnemonic ≠ .prn)
    (hpra : i.mnemonic ≠ .pra) (h : handler limit i s = .ok t) (es : List OutEvent) :
    handler limit i (s.withOut es) = .ok (t.withOut es) := by
  cases i with
  | hlt =>
    obtain rfl := hltHandler_ok_iff.1 h
    exact hltHandler_ok_iff.2 rfl
  | ret =>
    obtain ⟨hsp, rfl⟩ := retHandler_ok_iff.1 h
    exact retHandler_ok_iff.2 ⟨hsp, rfl⟩
  | push a =>
    obtain ⟨ra, ha, hsp, rfl⟩ := pushHandler_ok_iff.1 h
    exact pushHandler_ok_iff.2 ⟨ra, ha, hsp, rfl⟩
  | pop a =>
    obtain ⟨ra, ha, hsp, rfl⟩ := popHandler_ok_iff.1 h
    exact popHandler_ok_iff.2 ⟨ra, ha, hsp, rfl⟩
  | prn a => exact absurd rfl hprn
  | pra a => exact absurd rfl hpra
  | call a =>
    obtain ⟨ra, ha, hsp, hpc, rfl⟩ := callHandler_ok_iff.1 h
    exact callHandler_ok_iff.2 ⟨ra, ha, hsp, hpc, rfl⟩
  | jmp a =>
    obtain ⟨ra, ha, rfl⟩ := jmpHandler_ok_iff.1 h
    exact jmpHandler_ok_iff.2 ⟨ra, ha, rfl⟩
  | jeq a | jne a =>
    obtain ⟨ra, ha, rfl⟩ := branchHandler_ok_iff.1 h
    exact branchHandler_ok_iff.2 ⟨ra, ha, apply_ite (State.withOut · es) _ _ _⟩
  | ldi a imm =>
    obtain ⟨ra, ha, rfl⟩ := ldiHandler_ok_iff.1 h
    exact ldiHandler_ok_iff.2 ⟨ra, ha, rfl⟩
  | add a b | mul a b =>
    obtain ⟨ra, rb, ha, hb, v, hv, rfl⟩ := aluHandler_ok_iff.1 h
    exact aluHandler_ok_iff.2 ⟨ra, rb, ha, hb, v, hv, rfl⟩
  | cmp a b =>
    obtain ⟨ra, rb, ha, hb, rfl⟩ := cmpHandler_ok_iff.1 h
    exact cmpHandler_ok_iff.2 ⟨ra, rb, ha, hb, rfl⟩

/-- The same of a print, which appends its event to what OUT holds. -/
theorem printHandler_withOut {event : Byte → OutEvent} {a : Byte} {s t : State}
    (h : printHandler event a s = .ok t) :
    ∃ new, t.out = s.out ++ new ∧ ∀ es, printHandler event a (s.withOut es) = .ok (t.withOut (es ++ new)) := by
  obtain ⟨ra, ha, rfl⟩ := printHandler_ok_iff.1 h
  exact ⟨[event (s.reg ra)], rfl, fun _ => printHandler_ok_iff.2 ⟨ra, ha, rfl⟩⟩

/-- A handler that completes appends the same events to any OUT and does the same to everything else. -/
theorem handler_withOut_ok {limit : Byte} {i : Instr} {s t : State} (h : handler limit i s = .ok t) :
    ∃ new, t.out = s.out ++ new ∧ ∀ es, handler limit i (s.withOut es) = .ok (t.withOut (es ++ new)) := by
  by_cases hprn : i.mnemonic = .prn
  · obtain ⟨a, rfl⟩ : ∃ a, i = .prn a := by
      cases i with
      | prn a => exact ⟨a, rfl⟩
      | _ => cases hprn
    exact printHandler_withOut h
  by_cases hpra : i.mnemonic = .pra
  · obtain ⟨a, rfl⟩ : ∃ a, i = .pra a := by
      cases i with
      | pra a => exact ⟨a, rfl⟩
      | _ => cases hpra
    exact printHandler_withOut h
  obtain ⟨-, -, -, -, -, hsame | ⟨-, -, hi⟩ | ⟨-, -, hi⟩, -⟩ := handler_ok_frame h
  · refine ⟨[], by rw [hsame, List.append_nil], fun es => ?_⟩
    rw [List.append_nil]
    exact handler_withOut_of_silent hprn hpra h es
  · exact absurd hi hprn
  · exact absurd hi hpra

theorem handler_withOut_error {limit : Byte} {i : Instr} {s : State} {k : FaultCause}
    (h : handler limit i s = .error k) (es : List OutEvent) : handler limit i (s.withOut es) = .error k := by
  rw [handler_error_iff, State.withOut_sp, State.withOut_pc]
  exact handler_error_iff.1 h

/-- A step appends the same events to any OUT and does the same to everything else. -/
theorem stepWith_withOut {c : Config} {s t : State} (h : stepWith c s = .next t) :
    ∃ new, t.out = s.out ++ new ∧ ∀ es, stepWith c (s.withOut es) = .next (t.withOut (es ++ new)) := by
  obtain ⟨hrun, ⟨i, hi, hexec⟩ | ⟨e, he, rfl⟩⟩ := stepWith_eq_next h
  · have hstep (es : List OutEvent) : stepWith c (s.withOut es) = execWith c i (s.withOut es) :=
      stepWith_of_decodeFrom_ok hrun hi
    obtain hok | ⟨k, herr, rfl⟩ := execWith_eq_next hexec
    · obtain ⟨new, hout, hall⟩ := handler_withOut_ok hok
      exact ⟨new, hout, fun es => (hstep es).trans (execWith_of_handler_ok (hall es))⟩
    · refine ⟨[], (List.append_nil _).symm, fun es => ?_⟩
      rw [hstep, List.append_nil, execWith_of_handler_error (handler_withOut_error herr es)]
      rfl
  · refine ⟨[], (List.append_nil _).symm, fun es => ?_⟩
    rw [List.append_nil]
    exact stepWith_of_decodeFrom_error (s := s.withOut es) hrun he

/-- A run begins with a step. -/
theorem runSteps_succ_eq_next {n : Nat} {s u : State} :
    runSteps (n + 1) s = .next u ↔ ∃ t, step s = .next t ∧ runSteps n t = .next u := by
  rw [runSteps]
  cases step s <;> simp

/-- Settles O42, by induction on the number of steps: each step appends the same events to any OUT. -/
theorem outputDoesNotInfluenceRuns : Obligations.OutputDoesNotInfluenceRuns := by
  intro n
  induction n with
  | zero =>
    intro s t es h
    obtain rfl := Host.Outcome.next.inj h
    exact ⟨[], (List.append_nil _).symm, by rw [List.append_nil]; rfl⟩
  | succ n ih =>
    intro s u es h
    obtain ⟨t, hstep, hruns⟩ := runSteps_succ_eq_next.1 h
    obtain ⟨early, hearly, hstep'⟩ := stepWith_withOut (step_eq_stepWith s ▸ hstep)
    obtain ⟨later, hlater, hruns'⟩ := ih t u (es ++ early) hruns
    refine ⟨early ++ later, by rw [hlater, hearly, List.append_assoc], ?_⟩
    rw [← List.append_assoc]
    exact runSteps_succ_eq_next.2 ⟨_, (step_eq_stepWith _).trans (hstep' es), hruns'⟩

/-! ### Registers outside the table -/

section
variable {s t : State} {q : RegIdx} {v : Byte}

theorem State.setReg_reg_of_ne {r : RegIdx} (h : r ≠ q) : (s.setReg q v).reg r = s.reg r := by
  rw [State.setReg_reg, if_neg h]

theorem State.setReg_sp_of_ne (h : 7 ≠ q) : (s.setReg q v).sp = s.sp := State.setReg_reg_of_ne h

theorem State.setReg_comm {r : RegIdx} (h : r ≠ q) (x : Byte) :
    (s.setReg q v).setReg r x = (s.setReg r x).setReg q v := by
  have hval : r.val ≠ q.val := fun hrq => h (Fin.ext hrq)
  simp only [State.setReg, Vector.set_comm _ _ hval]

theorem State.writeReg_setReg_comm {r : RegIdx} (h : r ≠ q) (n : Nat) :
    (s.setReg q v).writeReg r n = (s.writeReg r n).setReg q v := State.setReg_comm h _

theorem State.setSp_setReg_comm (h : 7 ≠ q) (x : Byte) : (s.setReg q v).setSp x = (s.setSp x).setReg q v :=
  State.setReg_comm h x

/-- A register named by an operand is another one than `q`, where `q` is not among those touched. -/
theorem ne_of_not_mem_touched {l : List Nat} {r : RegIdx} {n : Nat} (hq : q.val ∉ l) (hn : n ∈ l) (hr : n = r.val) :
    r ≠ q := by
  rintro rfl
  exact hq (hr ▸ hn)

/-- Every instruction that looks at SP touches R7. -/
theorem seven_mem_touchedRegisters {i : Instr} (equal : Bool)
    (h : i.mnemonic = .push ∨ i.mnemonic = .call ∨ i.mnemonic = .pop ∨ i.mnemonic = .ret) :
    7 ∈ i.touchedRegisters equal := by
  cases i <;> simp [Instr.mnemonic, Instr.touchedRegisters] at h ⊢

/-- A fault does not depend on a register outside the table: the checks look at SP alone, in the four instructions that
touch it. -/
theorem handler_setReg_error {limit : Byte} {i : Instr} {k : FaultCause}
    (hq : q.val ∉ i.touchedRegisters s.equal) (h : handler limit i s = .error k) :
    handler limit i (s.setReg q v) = .error k := by
  have hsp (hi : i.mnemonic = .push ∨ i.mnemonic = .call ∨ i.mnemonic = .pop ∨ i.mnemonic = .ret) :
      (s.setReg q v).sp = s.sp :=
    State.setReg_sp_of_ne (ne_of_not_mem_touched hq (seven_mem_touchedRegisters s.equal hi) rfl)
  obtain hb | ⟨hlegal, ⟨hi, h0, rfl⟩ | ⟨hi, h0, hpc, rfl⟩ | ⟨hi, hlim, rfl⟩⟩ := handler_error_iff.1 h <;>
    rw [handler_error_iff]
  · exact .inl hb
  · rw [hsp (hi.imp_right .inl)]
    exact .inr ⟨hlegal, .inl ⟨hi, h0, rfl⟩⟩
  · rw [hsp (.inr (.inl hi))]
    exact .inr ⟨hlegal, .inr (.inl ⟨hi, h0, hpc, rfl⟩)⟩
  · rw [hsp (.inr (.inr hi))]
    exact .inr ⟨hlegal, .inr (.inr ⟨hi, hlim, rfl⟩)⟩

/-- A branch that is taken reads its register, one that is not taken reads none. -/
theorem branchHandler_setReg {taken : Bool} {a : Byte} (hq : taken = true → q.val ∉ [a.toNat])
    (h : branchHandler taken a s = .ok t) : branchHandler taken a (s.setReg q v) = .ok (t.setReg q v) := by
  obtain ⟨ra, ha, rfl⟩ := branchHandler_ok_iff.1 h
  refine branchHandler_ok_iff.2 ⟨ra, ha, ?_⟩
  cases taken with
  | false => rfl
  | true =>
    have hra : ra ≠ q := ne_of_not_mem_touched (hq rfl) (.head _) ha
    simp only [if_true, State.setReg_reg_of_ne hra]
    rfl

theorem aluHandler_setReg {op : AluOp} {a b : Byte} (hq : q.val ∉ [a.toNat, b.toNat])
    (h : aluHandler op a b s = .ok t) : aluHandler op a b (s.setReg q v) = .ok (t.setReg q v) := by
  obtain ⟨ra, rb, ha, hb, x, hx, rfl⟩ := aluHandler_ok_iff.1 h
  have hra : ra ≠ q := ne_of_not_mem_touched hq (by simp) ha
  have hrb : rb ≠ q := ne_of_not_mem_touched hq (by simp) hb
  refine aluHandler_ok_iff.2 ⟨ra, rb, ha, hb, x, ?_, ?_⟩
  · rwa [State.setReg_reg_of_ne hra, State.setReg_reg_of_ne hrb]
  · rw [State.writeReg_setReg_comm hra]
    rfl

theorem printHandler_setReg {event : Byte → OutEvent} {a : Byte} (hq : q.val ∉ [a.toNat])
    (h : printHandler event a s = .ok t) : printHandler event a (s.setReg q v) = .ok (t.setReg q v) := by
  obtain ⟨ra, ha, rfl⟩ := printHandler_ok_iff.1 h
  have hra : ra ≠ q := ne_of_not_mem_touched hq (by simp) ha
  refine printHandler_ok_iff.2 ⟨ra, ha, ?_⟩
  rw [State.setReg_reg_of_ne hra]
  rfl

/-- A handler that completes does so with another value in a register outside the table, to the same effect on
everything
else. -/
theorem handler_setReg_ok {limit : Byte} {i : Instr} (hq : q.val ∉ i.touchedRegisters s.equal)
    (h : handler limit i s = .ok t) : handler limit i (s.setReg q v) = .ok (t.setReg q v) := by
  cases i with
  | hlt =>
    obtain rfl := hltHandler_ok_iff.1 h
    exact hltHandler_ok_iff.2 rfl
  | ret =>
    obtain ⟨hsp, rfl⟩ := retHandler_ok_iff.1 h
    have h7 : 7 ≠ q := ne_of_not_mem_touched hq (.head _) rfl
    refine retHandler_ok_iff.2 ?_
    rw [State.setReg_sp_of_ne h7, State.setSp_setReg_comm h7]
    exact ⟨hsp, rfl⟩
  | push a =>
    obtain ⟨ra, ha, hsp, rfl⟩ := pushHandler_ok_iff.1 h
    have h7 : 7 ≠ q := ne_of_not_mem_touched hq (.head _) rfl
    have hra : ra ≠ q := ne_of_not_mem_touched hq (.tail _ (.head _)) ha
    refine pushHandler_ok_iff.2 ⟨ra, ha, ?_⟩
    rw [State.setReg_sp_of_ne h7, State.setSp_setReg_comm h7, State.setReg_reg_of_ne hra]
    exact ⟨hsp, rfl⟩
  | pop a =>
    obtain ⟨ra, ha, hsp, rfl⟩ := popHandler_ok_iff.1 h
    have h7 : 7 ≠ q := ne_of_not_mem_touched hq (.head _) rfl
    have hra : ra ≠ q := ne_of_not_mem_touched hq (.tail _ (.head _)) ha
    refine popHandler_ok_iff.2 ⟨ra, ha, ?_⟩
    rw [State.setReg_sp_of_ne h7, State.setSp_setReg_comm h7, State.writeReg_setReg_comm hra]
    exact ⟨hsp, rfl⟩
  | call a =>
    obtain ⟨ra, ha, hsp, hpc, rfl⟩ := callHandler_ok_iff.1 h
    have h7 : 7 ≠ q := ne_of_not_mem_touched hq (.head _) rfl
    have hra : ra ≠ q := ne_of_not_mem_touched hq (.tail _ (.head _)) ha
    refine callHandler_ok_iff.2 ⟨ra, ha, ?_⟩
    rw [State.setReg_sp_of_ne h7, State.setSp_setReg_comm h7, State.setReg_reg_of_ne hra]
    exact ⟨hsp, hpc, rfl⟩
  | prn a | pra a => exact printHandler_setReg hq h
  | jmp a =>
    obtain ⟨ra, ha, rfl⟩ := jmpHandler_ok_iff.1 h
    refine jmpHandler_ok_iff.2 ⟨ra, ha, ?_⟩
    rw [State.setReg_reg_of_ne (ne_of_not_mem_touched hq (.head _) ha)]
    rfl
  | jeq a =>
    refine branchHandler_setReg (taken := s.equal) (fun hequal => ?_) h
    simpa [Instr.touchedRegisters, hequal] using hq
  | jne a =>
    refine branchHandler_setReg (taken := !s.equal) (fun hequal => ?_) h
    have hclear : s.equal = false := by simpa using hequal
    simpa [Instr.touchedRegisters, hclear] using hq
  | ldi a imm =>
    obtain ⟨ra, ha, rfl⟩ := ldiHandler_ok_iff.1 h
    refine ldiHandler_ok_iff.2 ⟨ra, ha, ?_⟩
    rw [State.writeReg_setReg_comm (ne_of_not_mem_touched hq (.head _) ha)]
    rfl
  | add a b | mul a b => exact aluHandler_setReg hq h
  | cmp a b =>
    obtain ⟨ra, rb, ha, hb, rfl⟩ := cmpHandler_ok_iff.1 h
    refine cmpHandler_ok_iff.2 ⟨ra, rb, ha, hb, ?_⟩
    rw [State.setReg_reg_of_ne (ne_of_not_mem_touched hq (.head _) ha),
      State.setReg_reg_of_ne (ne_of_not_mem_touched hq (.tail _ (.head _)) hb)]
    rfl

end

/-- Settles O44: neither a completed handler nor a fault depends on a register outside the table. -/
theorem otherRegistersDoNotInfluence : Obligations.OtherRegistersDoNotInfluence := by
  intro i s t q v hq h
  rw [exec_eq_execWith] at h ⊢
  obtain hok | ⟨k, herr, rfl⟩ := execWith_eq_next h
  · exact execWith_of_handler_ok (handler_setReg_ok hq hok)
  · exact execWith_of_handler_error (handler_setReg_error hq herr)

end Sys2Proof.Machine
end

section
/-! The stack: a push and a pop balance, pushes and pops are last in first out, and SP bounds the depth (43_stack.md
R124); a
RET comes back after its CALL (44_control_transfer.md R133, R134). -/

namespace Sys2Proof.Machine

/-- The state after PUSH of a register other than R7. -/
def State.afterPush (s : State) (r : RegIdx) : State :=
  ((s.setSp (s.sp - 1)).storeByte (s.sp - 1).toNat (s.reg r)).advance 2

/-- The state after POP. -/
def State.afterPop (s : State) (r : RegIdx) : State :=
  ((s.setSp (s.sp + 1)).writeReg r (s.mem.read s.sp.toNat).toNat).advance 2

section
variable {c : Config} {s : State} {r : RegIdx}

theorem execWith_push {a : Byte} (ha : a.toNat = r.val) (hr : r ≠ 7) (hsp : s.sp ≠ 0) :
    execWith c (.push a) s = .next (s.afterPush r) := by
  have hvalue : (s.setSp (s.sp - 1)).reg r = s.reg r := (s.setSp_reg r _).trans (if_neg hr)
  rw [execWith_push_of_legal ha hsp, hvalue, State.afterPush]

theorem execWith_pop {a : Byte} (ha : a.toNat = r.val) (hsp : s.sp.toNat + 1 ≤ c.spLimit.toNat) :
    execWith c (.pop a) s = .next (s.afterPop r) := execWith_pop_of_legal ha hsp

@[simp] theorem State.afterPush_sp : (s.afterPush r).sp = s.sp - 1 := s.setSp_sp _

@[simp] theorem State.afterPush_mem : (s.afterPush r).mem = s.mem.write (s.sp - 1).toNat (s.reg r) := rfl

theorem State.afterPush_reg {q : RegIdx} (hq : q ≠ 7) : (s.afterPush r).reg q = s.reg q :=
  (s.setSp_reg q _).trans (if_neg hq)

theorem State.afterPop_sp (hr : r ≠ 7) : (s.afterPop r).sp = s.sp + 1 :=
  (State.writeReg_sp_of_ne _ hr _).trans (s.setSp_sp _)

@[simp] theorem State.afterPop_mem : (s.afterPop r).mem = s.mem := rfl

theorem State.afterPop_reg_self : (s.afterPop r).reg r = s.mem.read s.sp.toNat := State.writeReg_reg_toNat _ r _

theorem State.afterPop_reg {q : RegIdx} (hqr : q ≠ r) (hq : q ≠ 7) : (s.afterPop r).reg q = s.reg q :=
  sameRegistersExcept_pop s r _ _ q (by simp [hqr, hq])

theorem wf_afterPush (hwf : s.mem.wf = true) : (s.afterPush r).mem.wf = true :=
  Memory.wf_write _ hwf (s.sp - 1).isLt

end

/-- Settles O46: the pop reads the byte at SP - 1 that the push stored, and SP - 1 + 1 is SP. -/
theorem pushThenPopBalances : Obligations.PushThenPopBalances := by
  intro c s a d ra rd hwf ha hd hra hrd hsp hlimit
  have hdec : (s.sp - 1).toNat + 1 = s.sp.toNat := by bv_omega
  have hback : s.sp - 1 + 1 = s.sp := BitVec.sub_add_cancel _ _
  have hread : (s.afterPush ra).mem.read (s.sp - 1).toNat = s.reg ra := by
    rw [State.afterPush_mem, Memory.read_write hwf, if_pos rfl]
  have hsp' : ((s.afterPush ra).afterPop rd).sp = s.sp := by
    rw [State.afterPop_sp hrd, State.afterPush_sp, hback]
  refine ⟨s.afterPush ra, (s.afterPush ra).afterPop rd, execWith_push ha hra hsp, execWith_pop hd ?_, hsp', ?_, hread,
    fun q hq => ?_, fun x hx => ?_, rfl, ⟨rfl, rfl⟩, rfl⟩
  · rwa [State.afterPush_sp, hdec]
  · rw [State.afterPop_reg_self, State.afterPush_sp, hread]
  · by_cases hq7 : q = 7
    · rw [hq7]
      exact hsp'
    · rw [State.afterPop_reg (List.ne_of_not_mem_cons hq) hq7, State.afterPush_reg hq7]
  · rw [State.afterPop_mem, State.afterPush_mem, Memory.read_write hwf, if_neg hx]

/-! ### Runs of pushes and of pops -/

theorem regByte_toNat (r : RegIdx) : (regByte r).toNat = r.val := by
  revert r; decide

theorem execAll_append (is js : List Instr) (s : State) {t : State} (h : execAll is s = .next t) :
    execAll (is ++ js) s = execAll js t := by
  induction is generalizing s with
  | nil =>
    obtain rfl := Host.Outcome.next.inj h
    rfl
  | cons i is ih =>
    rw [execAll] at h
    rw [List.cons_append, execAll]
    cases hi : exec i s with
    | next u =>
      rw [hi] at h
      exact ih u h
    | fault r => rw [hi] at h; cases h
    | refused r => rw [hi] at h; cases h

theorem execAll_cons {i : Instr} {is : List Instr} {s t : State} (h : exec i s = .next t) :
    execAll (i :: is) s = execAll is t := by
  rw [execAll, h]

/-- What a run of pushes leaves: the values below the former top, the first one highest. -/
structure Pushed (rs : List RegIdx) (s t : State) : Prop where
  mem_wf : t.mem.wf = true
  sp : t.sp.toNat = s.sp.toNat - rs.length
  value : ∀ k (h : k < rs.length), t.mem.read (s.sp.toNat - 1 - k) = s.reg rs[k]
  above : ∀ x, s.sp.toNat ≤ x → t.mem.read x = s.mem.read x
  reg : ∀ q ≠ 7, t.reg q = s.reg q
  run_fault : SameRunAndFault s t

/-- Pushes of registers other than R7 complete while SP is not 0. -/
theorem exists_pushed {rs : List RegIdx} {s : State} (hwf : s.mem.wf = true) (h7 : 7 ∉ rs)
    (hlen : rs.length ≤ s.sp.toNat) :
    ∃ t, execAll (rs.map fun r => .push (regByte r)) s = .next t ∧ Pushed rs s t := by
  induction rs generalizing s with
  | nil => exact ⟨s, rfl, hwf, rfl, nofun, fun _ _ => rfl, fun _ _ => rfl, rfl, rfl⟩
  | cons r rs ih =>
    obtain ⟨hr, hrs⟩ : r ≠ 7 ∧ 7 ∉ rs := ⟨(List.ne_of_not_mem_cons h7).symm, List.not_mem_of_not_mem_cons h7⟩
    rw [List.length_cons] at hlen
    have hsp : s.sp ≠ 0 := by
      rintro h0
      rw [h0] at hlen
      exact absurd hlen (Nat.not_succ_le_zero _)
    have hdec : (s.afterPush r).sp.toNat = s.sp.toNat - 1 := by rw [State.afterPush_sp, toNat_sub_one hsp]
    have hread (x : Nat) : (s.afterPush r).mem.read x = if x = s.sp.toNat - 1 then s.reg r else s.mem.read x := by
      rw [State.afterPush_mem, Memory.read_write hwf, toNat_sub_one hsp]
    have hexec : exec (.push (regByte r)) s = .next (s.afterPush r) := by
      rw [exec_eq_execWith, execWith_push (regByte_toNat r) hr hsp]
    obtain ⟨t, hrun, hpushed⟩ := ih (s := s.afterPush r) (wf_afterPush hwf) hrs (by omega)
    refine ⟨t, (execAll_cons hexec).trans hrun, hpushed.mem_wf, ?_, fun k hk => ?_, fun x hx => ?_, fun q hq => ?_,
      hpushed.run_fault⟩
    · rw [hpushed.sp, hdec, List.length_cons, Nat.sub_sub, Nat.add_comm]
    · cases k with
      | zero =>
        rw [hpushed.above _ (by omega), hread, if_pos (by omega)]
        rfl
      | succ k =>
        have hk' : k < rs.length := Nat.lt_of_succ_lt_succ hk
        have haddr : s.sp.toNat - 1 - (k + 1) = (s.afterPush r).sp.toNat - 1 - k := by omega
        have hne : rs[k] ≠ 7 := fun h => hrs (h ▸ List.getElem_mem hk')
        rw [haddr, hpushed.value k hk', State.afterPush_reg hne, List.getElem_cons_succ]
    · rw [hpushed.above x (by omega), hread, if_neg (by omega)]
    · rw [hpushed.reg q hq, State.afterPush_reg hq]

/-- What a run of pops leaves: the bytes from SP upward in the popped registers. -/
structure Popped (rs : List RegIdx) (s t : State) : Prop where
  sp : t.sp.toNat = s.sp.toNat + rs.length
  value : ∀ k (h : k < rs.length), t.reg rs[k] = s.mem.read (s.sp.toNat + k)
  reg : ∀ q ∉ rs, q ≠ 7 → t.reg q = s.reg q
  run_fault : SameRunAndFault s t

/-- Pops into distinct registers other than R7 complete while SP is below SP_LIMIT = 255. -/
theorem exists_popped {rs : List RegIdx} {s : State} (h7 : 7 ∉ rs) (hnodup : rs.Nodup)
    (hlen : s.sp.toNat + rs.length ≤ 255) :
    ∃ t, execAll (rs.map fun r => .pop (regByte r)) s = .next t ∧ Popped rs s t := by
  induction rs generalizing s with
  | nil => exact ⟨s, rfl, rfl, nofun, fun _ _ _ => rfl, rfl, rfl⟩
  | cons r rs ih =>
    obtain ⟨hr, hrs⟩ : r ≠ 7 ∧ 7 ∉ rs := ⟨(List.ne_of_not_mem_cons h7).symm, List.not_mem_of_not_mem_cons h7⟩
    obtain ⟨hfresh, hnodup'⟩ := List.nodup_cons.1 hnodup
    rw [List.length_cons] at hlen
    have hsp : s.sp.toNat + 1 ≤ 255 := by omega
    have hinc : (s.afterPop r).sp.toNat = s.sp.toNat + 1 := by rw [State.afterPop_sp hr, toNat_add_one hsp]
    have hexec : exec (.pop (regByte r)) s = .next (s.afterPop r) := exec_pop_of_legal (regByte_toNat r) hsp
    obtain ⟨t, hrun, hpopped⟩ := ih (s := s.afterPop r) hrs hnodup' (by omega)
    refine ⟨t, (execAll_cons hexec).trans hrun, ?_, fun k hk => ?_, fun q hq hq7 => ?_, hpopped.run_fault⟩
    · rw [hpopped.sp, hinc, List.length_cons, Nat.add_assoc, Nat.add_comm 1]
    · cases k with
      | zero =>
        rw [List.getElem_cons_zero, hpopped.reg r hfresh hr, State.afterPop_reg_self]
        rfl
      | succ k =>
        rw [List.getElem_cons_succ, hpopped.value k (Nat.lt_of_succ_lt_succ hk), State.afterPop_mem, hinc,
          Nat.add_assoc, Nat.add_comm 1]
    · rw [hpopped.reg q (List.not_mem_of_not_mem_cons hq) hq7, State.afterPop_reg (List.ne_of_not_mem_cons hq) hq7]

/-- Settles O47: the pops read the addresses upward from SP - n, where the pushes stored their values downward from
SP - 1. -/
theorem stackIsLastInFirstOut : Obligations.StackIsLastInFirstOut := by
  intro s pushed popped hwf h7 h7' hnodup hlen hle
  have hlt := s.sp.isLt
  obtain ⟨u, hpush, hpushed⟩ := exists_pushed hwf h7 hle
  have hu := hpushed.sp
  obtain ⟨t, hpop, hpopped⟩ := exists_popped (s := u) h7' hnodup (by omega)
  have hsp : t.sp = s.sp := BitVec.eq_of_toNat_eq (by rw [hpopped.sp]; omega)
  refine ⟨t, (execAll_append _ _ s hpush).trans hpop, hsp, ?_, fun q hq => ?_, ?_⟩
  · refine List.ext_getElem (by simp [hlen]) fun k hk _ => ?_
    have hk' : k < popped.length := by simpa using hk
    have haddr : u.sp.toNat + k = s.sp.toNat - 1 - (pushed.length - 1 - k) := by omega
    simp only [List.getElem_map, List.getElem_reverse, List.length_map]
    rw [hpopped.value k hk', haddr, hpushed.value _ (by omega)]
  · by_cases hq7 : q = 7
    · rw [hq7]
      exact hsp
    · rw [hpopped.reg q hq hq7, hpushed.reg q hq7]
  · exact ⟨hpopped.run_fault.1.trans hpushed.run_fault.1, hpopped.run_fault.2.trans hpushed.run_fault.2⟩

/-- Settles O48: the run of pushes completes, and with as many as SP it leaves SP = 0, where a push overflows. -/
theorem stackDepthIsTheStackPointer : Obligations.StackDepthIsTheStackPointer := by
  refine ⟨fun s pushed hwf h7 hle => ?_, rfl⟩
  obtain ⟨t, hrun, hpushed⟩ := exists_pushed hwf h7 hle
  refine ⟨t, hrun, hpushed.run_fault.2, hpushed.sp, hpushed.value, fun hfull r => ?_⟩
  have hsp : t.sp = 0 := BitVec.eq_of_toNat_eq (by rw [hpushed.sp, hfull, Nat.sub_self]; rfl)
  exact exec_of_handler_error (handler_push_overflow (by rw [regByte_toNat]; omega) hsp)

/-- Settles O49: the RET pops the byte that the CALL stored, PC + 2, and increments the SP that the CALL decremented. -/
theorem returnComesBackAfterTheCall : Obligations.ReturnComesBackAfterTheCall := by
  intro s a hwf ha hsp hpc
  refine ⟨_, exec_call_of_legal (ra := ⟨a.toNat, by omega⟩) rfl hsp hpc, fun w hwsp hwread => ?_⟩
  have hwf' : (s.setSp (s.sp - 1)).mem.wf = true := hwf
  rw [State.jump_sp, State.storeByte_sp, State.setSp_sp] at hwsp hwread
  rw [State.jump_mem, State.storeByte_read_self hwf', ← hwsp] at hwread
  have hdec : w.sp.toNat + 1 = s.sp.toNat := by rw [hwsp]; bv_omega
  refine ⟨_, exec_ret (by have := s.sp.isLt; omega), ?_, ?_, sameRegistersExcept_setSp _ w⟩
  · rw [State.jump_pc, toNat_setWidth_pc, hwread, BitVec.toNat_ofNat]
    omega
  · rw [State.jump_sp, State.setSp_sp, hwsp]
    exact BitVec.sub_add_cancel _ _

end Sys2Proof.Machine
end

section
/-! The start of the process: loading an image, its text form, and the load failures (70_reset_and_hazards.md R192 to
R196,
30_encoding.md R71). -/

namespace Sys2Proof.Machine

/-- Settles O20: the length is checked before anything is written. -/
theorem longImageIsALoadFailure : Obligations.LongImageIsALoadFailure := by
  intro image s h
  exact if_neg (Nat.not_le.2 h)

/-- Settles O14, by evaluating the fields of the reset state and each of its eight registers. -/
theorem resetStateIsTheTables : Obligations.ResetStateIsTheTables :=
  ⟨fun _ => rfl, by decide, rfl, rfl, rfl, rfl, rfl⟩

/-- The digits of a byte are binary digits. -/
theorem mem_binaryDigits {b : Byte} {ch : Char} (h : ch ∈ binaryDigits b) : ch = '0' ∨ ch = '1' := by
  obtain ⟨k, -, rfl⟩ := List.mem_map.1 h
  cases b.getLsbD k
  · exact .inl rfl
  · exact .inr rfl

/-- A byte's line of the text form is read as that byte. -/
theorem parseLine_imageLine (b : Byte) (comment : List Char) :
    parseLine (binaryDigits b ++ ' ' :: '#' :: comment) = .ok (some b) := by
  have hne : binaryDigits b ≠ [] := by simp [binaryDigits]
  have hlength : (binaryDigits b).length ≤ 8 := by simp [binaryDigits]
  rw [parseLine_digits (fun ch => mem_binaryDigits) hne hlength, binaryValue_binaryDigits, BitVec.ofNat_toNat,
    BitVec.setWidth_eq]

/-- The text form of a byte and those after it is its line and the lines of the rest. -/
theorem splitLines_imageText_cons {comment : List Char} (h : '\n' ∉ comment) (b : Byte) (bs : List Byte) :
    splitLines (imageText comment (b :: bs)) =
      (binaryDigits b ++ ' ' :: '#' :: comment) :: splitLines (imageText comment bs) := by
  refine splitLines_line (fun hmem => ?_) _
  obtain hdigit | hcomment := List.mem_append.1 hmem
  · obtain hzero | hone := mem_binaryDigits hdigit
    · exact absurd hzero (by decide)
    · exact absurd hone (by decide)
  · simp [h] at hcomment

/-- The text form of an image is parsed to the image. -/
theorem parseLines_imageText {comment : List Char} (h : '\n' ∉ comment) (image : List Byte) :
    parseLines (splitLines (imageText comment image)) = .ok image := by
  induction image with
  | nil => rfl
  | cons b bs ih =>
    rw [splitLines_imageText_cons h, parseLines, parseLine_imageLine, ih]
    rfl

/-- Settles O21: the text is parsed to the image, by induction on it, and start-up loads what is parsed. -/
theorem imageTextIsLoadedByteForByte : Obligations.ImageTextIsLoadedByteForByte := by
  intro comment image h
  rw [startUp, parseLines_imageText h, except_ok_bind]

/-- Settles O55: a malformed line makes the parse fail with a malformed literal, and a start that succeeds is the
reset state
with another memory. -/
theorem loadFailuresEndTheProcess : Obligations.LoadFailuresEndTheProcess := by
  refine ⟨rfl, rfl, fun text line hline hne hbad => ?_, fun i e h => ?_, fun i s h => ?_⟩
  · obtain ⟨l, -, e, hl, hparse⟩ := parseLines_error_of_mem hline (parseLine_error_iff.2 ⟨hne, rfl, hbad⟩)
    obtain ⟨-, rfl, -⟩ := parseLine_error_iff.1 hl
    exact ⟨_, by rw [launch, startUp, hparse, except_error_bind]⟩
  · rw [h]
    exact ⟨rfl, nofun⟩
  · obtain ⟨m, rfl⟩ := launch_ok h
    rw [h]
    exact ⟨rfl, rfl⟩

end Sys2Proof.Machine
end

section
/-! What the host observes of the output and of FAULT (45_io_and_halt.md R150, R151; 60_exceptions.md R161). -/

namespace Sys2Proof.Machine

/-- The digits of a value below 1000 are its decimal representation without leading zeros. -/
theorem decimalDigits_spec {n : Nat} (h : n < 1000) :
    1 ≤ (decimalDigits n).length ∧ (decimalDigits n).length ≤ 3 ∧ (∀ d ∈ decimalDigits n, d ≤ 9) ∧
      (decimalDigits n).foldl (fun m d => 10 * m + d) 0 = n ∧
      ((decimalDigits n).head? = some 0 → n = 0 ∧ (decimalDigits n).length = 1) := by
  unfold decimalDigits
  split
  · simp; omega
  · split <;> simp <;> omega

/-- A byte's value is a code point. -/
theorem toNat_ofNat_byte (v : Byte) : (Char.ofNat v.toNat).toNat = v.toNat := by
  have hvalid : v.toNat.isValidChar := .inl (v.isLt.trans (by decide))
  rw [Char.toNat_ofNat, if_pos hvalid]

/-- Settles O52: the rendered digits are the decimal representation, and a byte is a code point. -/
theorem outputTextIsDecimalOrCharacter : Obligations.OutputTextIsDecimalOrCharacter := by
  intro v
  have hlt := v.isLt
  obtain ⟨hpos, hle, hdigit, hvalue, hhead⟩ := decimalDigits_spec (n := v.toNat) (by omega)
  refine ⟨⟨decimalDigits v.toNat, rfl, hpos, hle, hdigit, hvalue, fun h => ?_⟩, ⟨_, rfl, toNat_ofNat_byte v⟩⟩
  obtain ⟨hzero, hone⟩ := hhead h
  exact ⟨BitVec.eq_of_toNat_eq hzero, hone⟩

theorem State.faultCode_of_some {s : State} {r : FaultRecord} (h : s.fault = some r) :
    s.faultCode = r.cause.kind.code := by
  rw [State.faultCode, h]

/-- Settles O53: the code of each kind, and the classes, by evaluation. -/
theorem faultCodesAreTheTables : Obligations.FaultCodesAreTheTables := by
  refine ⟨fun s h => by rw [State.faultCode, h], fun s r h => ?_, rfl, rfl, rfl, rfl, rfl, rfl⟩
  rw [State.faultCode_of_some h]
  cases r.cause <;> rfl

end Sys2Proof.Machine
end
